-- ==== Sys2Proof/Word.lean ====
section
/-! DEFINITION. The two word types of the block (spec/00_scope.md R7: 8-bit data, 16-bit program counter). -/

namespace Sys2Proof

/-- A byte: the width of `A`, `X`, `P`, an opcode and an operand (R7). -/
abbrev Byte := BitVec 8

/-- A 16-bit word: the width of `PC`, of a buffer index and of `fault_info` (R7, R30). -/
abbrev Word := BitVec 16

end Sys2Proof
end

