-- ==== Sys2Proof/Syntax.lean ====
section
/-! DEFINITION. The instructions: one constructor per row of spec/opcode_table.json (R60). -/

namespace Sys2Proof

/-- The four instructions of the block (R2, R60). -/
inductive Instr where
  /-- `BRK`, opcode `0x00`, format IMP (R90). -/
  | brk
  /-- `LDA #imm` (the table's `LDA__imm`), opcode `0xA9`, format IMM with its operand byte `imm8` (R58, R92). -/
  | ldaImm (imm8 : Byte)
  /-- `TAX`, opcode `0xAA`, format IMP (R94). -/
  | tax
  /-- `INX`, opcode `0xE8`, format IMP (R96). -/
  | inx
deriving DecidableEq, Repr

end Sys2Proof
end

