-- ==== Sys2Proof/Decode.lean ====
section
/-! DEFINITION. The instruction decoder and the encoder, from the opcode map of spec/30_encoding.md (R56 to R66). -/

namespace Sys2Proof

/-- The rows of the opcode map (R60), by name. -/
inductive Opcode where
  | brk
  | ldaImm
  | tax
  | inx
deriving DecidableEq, Repr

/-- What the decoder makes of a byte sequence. -/
inductive Decoded where
  /-- An instruction, and the bytes after it. -/
  | instr (i : Instr) (rest : List Byte)
  /-- The opcode is in no row of the map (R62). -/
  | unimplemented (op : Byte)
  /-- The opcode's operand byte is missing (R93). -/
  | operandMissing (op : Byte)
  /-- There is no opcode byte. -/
  | opcodeMissing
deriving DecidableEq, Repr

/-- The opcode byte of a row (R60). -/
def opcodeByte : Opcode → Byte
  | .brk => 0x00#8
  | .ldaImm => 0xA9#8
  | .tax => 0xAA#8
  | .inx => 0xE8#8

/-- The row an opcode byte selects, on all eight bits (R60, R63); none for the 252 unimplemented values (R62). -/
def decodeOpcode (op : Byte) : Option Opcode :=
  if op = 0x00#8 then some .brk
  else if op = 0xA9#8 then some .ldaImm
  else if op = 0xAA#8 then some .tax
  else if op = 0xE8#8 then some .inx
  else none

/-- The length in bytes of a row's instruction (R56, R61). -/
def opcodeLength : Opcode → Nat
  | .brk => 1
  | .ldaImm => 2
  | .tax => 1
  | .inx => 1

/-- The decoder (R60, R78): the opcode is the first byte (R56); LDA's operand is the byte after it (R58, R59); an
unimplemented opcode looks at no further byte (R63). -/
def decode : List Byte → Decoded
  | [] => .opcodeMissing
  | op :: rest =>
    match decodeOpcode op with
    | none => .unimplemented op
    | some .brk => .instr .brk rest
    | some .tax => .instr .tax rest
    | some .inx => .instr .inx rest
    | some .ldaImm =>
      match rest with
      | [] => .operandMissing op
      | imm8 :: rest' => .instr (.ldaImm imm8) rest'

/-- The row an instruction belongs to. -/
def opcodeOf : Instr → Opcode
  | .brk => .brk
  | .ldaImm _ => .ldaImm
  | .tax => .tax
  | .inx => .inx

/-- The operand bytes of an instruction (R57, R58). -/
def operandBytes : Instr → List Byte
  | .brk => []
  | .ldaImm imm8 => [imm8]
  | .tax => []
  | .inx => []

/-- The encoder: the opcode byte, then the operand byte if there is one (R56 to R58). -/
def encode (i : Instr) : List Byte :=
  opcodeByte (opcodeOf i) :: operandBytes i

/-- The two bytes (the longest instruction) of an instruction whose bits are `w`, numbered as spec/opcode_table.json
numbers them: bits 7..0 are the first byte, bits 15..8 the second; every bit from `nbits` up is 0. -/
def tableWordBytes (nbits w : Nat) : Byte × Byte :=
  (BitVec.ofNat 8 (w % 2 ^ nbits), BitVec.ofNat 8 (w % 2 ^ nbits / 256))

/-- The instruction the decoder reads from a word of spec/opcode_table.json; none where it refuses. -/
def decodeTableWord (nbits w : Nat) : Option Instr :=
  match decode [(tableWordBytes nbits w).1, (tableWordBytes nbits w).2] with
  | .instr i _ => some i
  | .unimplemented _ => none
  | .operandMissing _ => none
  | .opcodeMissing => none

/-- A hexadecimal digit, for the listing. -/
def hexDigit (n : Nat) : Char :=
  if n < 10 then Char.ofNat (48 + n) else Char.ofNat (55 + n)

/-- The assembler spelling of an instruction (R65, decision D20). -/
def assembly : Instr → String
  | .brk => "BRK"
  | .ldaImm imm8 => "LDA #$" ++ String.ofList [hexDigit (imm8.toNat / 16), hexDigit (imm8.toNat % 16)]
  | .tax => "TAX"
  | .inx => "INX"

end Sys2Proof
end

