-- ==== Sys2Proof/Machine/State.lean ====
section
/-! DEFINITION. The state of one block (spec/10_state.md R15 to R38) as plain data, the model's reasons to stop, and
the state after reset (R36). -/

namespace Sys2Proof.Machine

/-- The FSM state (R27, R75). -/
inductive Fsm where
  /-- Running: the next transition fetches an opcode (R76). -/
  | fetching
  /-- Running: the next transition executes the opcode in `IR` (R78). -/
  | dispatching
  /-- Terminal: a clean halt by BRK (R81). -/
  | halted
  /-- Terminal: a fault was raised (R82). -/
  | faulted
deriving DecidableEq, Repr

/-- The kind in the fault record (R29). The fourth code of its two bits is reserved and never written, so it has no
name here (spec/93_implementation_defined.md K1-7). -/
inductive FaultKind where
  /-- No fault in this run. -/
  | none
  /-- A read at an index outside the buffer was refused (R99). -/
  | outOfBounds
  /-- The fetched byte is no opcode of the map (R100). -/
  | unimplementedOpcode
deriving DecidableEq, Repr

/-- What the host drives at one clock edge (R33, R116, R124). -/
structure HostInput where
  /-- The port `rst`. -/
  rst : Bool
  /-- The port `start`. -/
  start : Bool
  /-- A new program buffer, put in place before the edge; `none` keeps the buffer as it is. -/
  buffer : Option (List Byte)
deriving DecidableEq, Repr

/-- The bytes of the program buffer, as (index, byte) cells. -/
abbrev Memory := List Host.Cell

/-- The complete state of the block with its run parameters (R38), and the host's inputs at the coming edges. -/
structure State where
  /-- The accumulator `A` (R16). -/
  a : Byte
  /-- The index register `X` (R17). -/
  x : Byte
  /-- The status register `P` (R23). -/
  p : Byte
  /-- The program counter `PC` (R20). -/
  pc : Word
  /-- The FSM state `fsm` (R27). -/
  fsm : Fsm
  /-- The opcode latch `IR` (R28). -/
  ir : Byte
  /-- The fault record's `fault_kind` (R29). -/
  faultKind : FaultKind
  /-- The fault record's `fault_info` (R30). -/
  faultInfo : Word
  /-- The program buffer `PROG` (R8, R39). -/
  prog : Memory
  /-- The buffer's length `PROG_LEN` (R8, R43). -/
  progLen : Nat
  /-- MODEL'S OWN FIELD (log entry 2): what the host drives at the coming edges, oldest first. After the last one both
  ports are 0 and the buffer is kept. -/
  inputs : List HostInput
deriving DecidableEq, Repr

/-- The model's reasons to stop with a fault. The block's own two faults are states of the machine (R101), not these. -/
inductive Fault where
  /-- Raised by `clockEdge` when the host supplies a buffer while the block is running and `rst` is 0: the spec
  gives the host no such move (R127) and describes no run after it (K1-5). Safe: nothing can be proved of that run. -/
  | bufferChangedDuringRun
deriving DecidableEq, Repr

/-- The model's refusals. -/
inductive Refusal where
  /-- Given by an arm of `exec` whose instruction has no meaning yet (no arm of this model). Safe. -/
  | notModelled (mnemonic : String)
  /-- Given by `clockEdge` when the host supplies a buffer longer than 65536 bytes: the model refuses it (R43, K1-6).
  Safe: such a buffer cannot be given to the block. -/
  | progLenOutOfRange
deriving DecidableEq, Repr

/-- The block right after reset (R36), before a host has supplied a program: `prog`, `progLen` and `inputs` have no
reset value in the spec (log entries 2 and 5). -/
def State.reset : State where
  a := 0x00#8
  x := 0x00#8
  p := 0x00#8
  pc := 0x0000#16
  fsm := .fetching
  ir := 0x00#8
  faultKind := .none
  faultInfo := 0x0000#16
  prog := []
  progLen := 0
  inputs := []

end Sys2Proof.Machine
end

