-- ==== Sys2Proof/Machine/Ops.lean ====
section
/-! DEFINITION. The named operations over the buffer and the registers, and the one operation that enters a fault
(spec/20_memory.md; spec/60_exceptions.md R101). A fault has no return inside the block (R103, R108): what leaves
Faulted is the host's reset or start, in Machine/HostActions.lean. -/

namespace Sys2Proof.Machine

/-! ### The program buffer -/

/-- What an index that the list does not name reads as (log entry 4). -/
def Memory.unlisted : Byte := 0x00#8

/-- The byte a buffer holds at an index. -/
def Memory.read : Memory → Nat → Byte
  | [], _ => Memory.unlisted
  | (k, v) :: m, i => if k = i then v else Memory.read m i

/-- A buffer with one byte changed, kept in canonical form. The block itself never writes its buffer (R41); this is
the host's store (R124), used by `State.placeWord`. -/
def Memory.write : Memory → Nat → Byte → Memory
  | [], i, b => if b = Memory.unlisted then [] else [(i, b)]
  | (k, v) :: m, i, b =>
    if i < k then (if b = Memory.unlisted then (k, v) :: m else (i, b) :: (k, v) :: m)
    else if i = k then (if b = Memory.unlisted then m else (i, b) :: m)
    else (k, v) :: Memory.write m i b

/-- The canonical form: indices strictly rise and no listed byte is what an unlisted index reads as. -/
abbrev Memory.wf (m : Memory) : Prop :=
  m.Pairwise (fun c d => c.1 < d.1) ∧ ∀ c ∈ m, c.2 ≠ Memory.unlisted

/-- A byte sequence as a buffer, its first byte at index `base` (R39: an ordered sequence of 8-bit values). -/
def Memory.ofBytes : Nat → List Byte → Memory
  | _, [] => []
  | base, b :: bs =>
    if b = Memory.unlisted then Memory.ofBytes (base + 1) bs else (base, b) :: Memory.ofBytes (base + 1) bs

/-- `InBounds(i)`: the index is below `PROG_LEN` (R44); an index equal to it is out of bounds (C2). -/
def State.inBounds (s : State) (i : Word) : Bool :=
  decide (i.toNat < s.progLen)

/-- `MemRead(i, 1)` behind its guard (R10, R45): one byte of the buffer, or no read at all. -/
def State.memRead (s : State) (i : Word) : Option Byte :=
  if s.inBounds i then some (s.prog.read i.toNat) else none

/-! ### Register writes (R19) -/

/-- `A <- v`. -/
def State.writeA (s : State) (v : Byte) : State := { s with a := v }

/-- `X <- v`. -/
def State.writeX (s : State) (v : Byte) : State := { s with x := v }

/-- `P <- v`. -/
def State.writeP (s : State) (v : Byte) : State := { s with p := v }

/-- `PC <- v`. -/
def State.writePc (s : State) (v : Word) : State := { s with pc := v }

/-- `IR <- v`. -/
def State.writeIr (s : State) (v : Byte) : State := { s with ir := v }

/-- `fsm <- q`. -/
def State.enter (s : State) (q : Fsm) : State := { s with fsm := q }

/-- `fault_kind <- k` and `fault_info <- info`. -/
def State.recordFault (s : State) (k : FaultKind) (info : Word) : State :=
  { s with faultKind := k, faultInfo := info }

/-- `PROG` and `PROG_LEN` replaced by the host's byte sequence (R124). -/
def State.supplyBuffer (s : State) (bytes : List Byte) : State :=
  { s with prog := Memory.ofBytes 0 bytes, progLen := bytes.length }

/-- The host's coming inputs, once the present one is taken. -/
def State.withInputs (s : State) (es : List HostInput) : State := { s with inputs := es }

/-- `PC <- (PC + 1) mod 2^16`, the advance past one byte (R19, R22). -/
def State.advancePc (s : State) : State := s.writePc (s.pc + 1#16)

/-! ### Entering a fault (R101) -/

/-- `raise F(info)`: the record, then `fsm <- Faulted`; nothing else changes (R101, R102). -/
def State.raise (s : State) (k : FaultKind) (info : Word) : State :=
  (s.recordFault k info).enter .faulted

/-- `raise OutOfBounds(i)`: it records the index (R99). -/
def State.raiseOutOfBounds (s : State) (i : Word) : State := s.raise .outOfBounds i

/-- `raise UnimplementedOpcode(op)`: it records `zext_16(op)` (R100). -/
def State.raiseUnimplementedOpcode (s : State) (op : Byte) : State :=
  s.raise .unimplementedOpcode (op.setWidth 16)

/-! ### The Fetching transition -/

/-- Fetching (R76): check, read into `IR`, advance `PC`, go to Dispatching; or raise with nothing else changed (R77). -/
def State.fetchOpcode (s : State) : State :=
  match s.memRead s.pc with
  | none => s.raiseOutOfBounds s.pc
  | some op => ((s.writeIr op).advancePc).enter .dispatching

/-! ### Placing an instruction for the host -/

/-- The state ready to fetch the instruction whose table word is `w`: its two bytes in the buffer at `PC` and after
it (modulo `2^16`), the buffer long enough to hold them, the FSM Fetching and the host driving nothing (log entry 8). -/
def State.placeWord (s : State) (nbits w : Nat) : State :=
  { s with
    prog := (s.prog.write s.pc.toNat (tableWordBytes nbits w).1).write (s.pc + 1#16).toNat (tableWordBytes nbits w).2
    progLen := max s.progLen (max (s.pc.toNat + 1) ((s.pc + 1#16).toNat + 1))
    fsm := .fetching
    inputs := [] }

end Sys2Proof.Machine
end

