-- ==== Sys2Proof/Config.lean ====
section
/-! DEFINITION. What is fixed for the block. The spec leaves no value to the implementation (spec/92_eei_decisions.md
settles every point), so there is no free value here. -/

namespace Sys2Proof

/-- The largest `PROG_LEN` (R8, R43; decision D2): a 16-bit `PC` names no more bytes. -/
def Config.maxProgLen : Nat := 65536

end Sys2Proof
end

