-- ==== Sys2Proof/WellFormed.lean ====
section
/-! DEFINITION. What is well formed: instructions, and the program buffers a host may give the block. -/

namespace Sys2Proof

/-- Whether the format has a place for every operand. The one operand, `imm8`, is a byte and takes every value of a
byte (R58, R59), so each instruction is well formed; the match names each constructor so that a new one is asked. -/
def Instr.wf : Instr → Bool
  | .brk => true
  | .ldaImm _ => true
  | .tax => true
  | .inx => true

/-- Whether a byte sequence can be given to the block as its program buffer: at most 65536 bytes (R43). The empty
sequence can. -/
def imageWf (bytes : List Byte) : Bool :=
  decide (bytes.length ≤ Config.maxProgLen)

end Sys2Proof
end

