-- ==== Sys2Proof/Machine/HostActions.lean ====
section
/-! DEFINITION. The host's actions (spec/70_reset_and_hazards.md R116 to R127): reset, start, and supplying the program
buffer between runs. -/

namespace Sys2Proof.Machine

/-- Whether no FSM transition follows (R75): Halted or Faulted. -/
def Fsm.terminal : Fsm → Bool
  | .fetching => false
  | .dispatching => false
  | .halted => true
  | .faulted => true

/-- The reset action (R117): every state element to its reset value. `PROG` and `PROG_LEN` are inputs of the block
(R38) and stay as the host drives them. -/
def State.resetAction (s : State) : State :=
  { s with
    a := 0x00#8
    x := 0x00#8
    p := 0x00#8
    pc := 0x0000#16
    fsm := .fetching
    ir := 0x00#8
    faultKind := .none
    faultInfo := 0x0000#16 }

/-- The start action (R119): a new run at index 0 with the fault record cleared; `A`, `X`, `P` and `IR` stay. -/
def State.startAction (s : State) : State :=
  ((s.writePc 0x0000#16).enter .fetching).recordFault .none 0x0000#16

/-- The input of an edge at which the host drives nothing. -/
def quietInput : HostInput := { rst := false, start := false, buffer := none }

/-- The input of the coming edge. -/
def State.nextInput (s : State) : HostInput := s.inputs.headD quietInput

/-- The state with the input of the coming edge taken. -/
def State.takeInput (s : State) : State := s.withInputs s.inputs.tail

/-- The host's supply of a buffer before an edge (R123, R124): a sequence over 65536 bytes is refused (R43); a supply
while the block runs and `rst` is 0 is no move of the host (R127). -/
def hostSupply (e : HostInput) (s : State) : Host.Outcome State Fault Refusal :=
  match e.buffer with
  | none => .next s
  | some bytes =>
    if imageWf bytes then
      if e.rst || s.fsm.terminal then .next (s.supplyBuffer bytes) else .fault .bufferChangedDuringRun
    else .refused .progLenOutOfRange

end Sys2Proof.Machine
end

