-- ==== Sys2Proof/Machine/Ports.lean ====
section
/-! DEFINITION. The block's output ports as functions of its state (spec/10_state.md R33, R34). -/

namespace Sys2Proof.Machine

/-- The two bits of `fsm` (R27). -/
def fsmCode : Fsm → BitVec 2
  | .fetching => 0b00#2
  | .dispatching => 0b01#2
  | .halted => 0b10#2
  | .faulted => 0b11#2

/-- The two bits of `fault_kind` (R29, R98). -/
def faultKindCode : FaultKind → BitVec 2
  | .none => 0b00#2
  | .outOfBounds => 0b01#2
  | .unimplementedOpcode => 0b10#2

/-- The registered outputs (R33). -/
structure Outputs where
  aOut : BitVec 8
  xOut : BitVec 8
  pOut : BitVec 8
  pcOut : BitVec 16
  fsmOut : BitVec 2
  faultKindOut : BitVec 2
  faultInfoOut : BitVec 16
deriving DecidableEq, Repr

/-- What the host reads: the state after the last completed transition (R34). -/
def State.outputs (s : State) : Outputs where
  aOut := s.a
  xOut := s.x
  pOut := s.p
  pcOut := s.pc
  fsmOut := fsmCode s.fsm
  faultKindOut := faultKindCode s.faultKind
  faultInfoOut := s.faultInfo

/-- The index the FSM's transition reads (R40, R89): the opcode's in Fetching, LDA's operand in Dispatching, and only
when it is in bounds (R45). -/
def State.fsmRead (s : State) : Option Word :=
  match s.fsm with
  | .fetching => if s.inBounds s.pc then some s.pc else none
  | .dispatching =>
    if (decodeOpcode s.ir).map opcodeLength = some 2 ∧ s.inBounds s.pc then some s.pc else none
  | .halted => none
  | .faulted => none

/-- `prog_addr` at the coming edge, none while it is not driven: a read is issued by an FSM transition, and a reset
takes the edge instead of one (R33, R118). -/
def State.progAddr (s : State) : Option Word :=
  if s.nextInput.rst then none else s.fsmRead

/-- `prog_rd` at the coming edge (R33). -/
def State.progRd (s : State) : Bool := s.progAddr.isSome

end Sys2Proof.Machine
end

