-- ==== Sys2Proof/Machine/Halt.lean ====
section
/-! DEFINITION. The halt family (spec/42_halt.md). -/

namespace Sys2Proof.Machine

/-- `exec_BRK` (R90): `fsm <- Halted` and nothing else; no push, no B or I, no vector (R91). -/
def execBrk (s : State) : Host.Outcome State Fault Refusal :=
  .next (s.enter .halted)

end Sys2Proof.Machine
end

