-- ==== Sys2Proof/Machine/Alu.lean ====
section
/-! DEFINITION. The ALU's two operations (spec/40_alu_flags.md R72); it has no other (R73). -/

namespace Sys2Proof.Machine

/-- `PASS(b)`, the load path. -/
def aluPass (b : Byte) : Byte := b

/-- `INC(x)`, the increment modulo `2^8`; its carry out goes nowhere (R72, R97). -/
def aluInc (x : Byte) : Byte := BitVec.ofNat 8 ((x.toNat + 1) % 2 ^ 8)

end Sys2Proof.Machine
end

