-- ==== Sys2Proof/Machine/Flags.lean ====
section
/-! DEFINITION. The status register's bits and the flag policy (spec/10_state.md R23; spec/40_alu_flags.md R67 to R71). -/

namespace Sys2Proof.Machine

/-- The bits of `P` (R23). -/
inductive Flag where
  | carry
  | zero
  | interruptDisable
  | decimalMode
  | breakBit
  | unused
  | overflow
  | negative
deriving DecidableEq, Repr

/-- The place of a flag in `P`, bit 0 the least significant (R9, R23). -/
def flagBit : Flag → Nat
  | .carry => 0
  | .zero => 1
  | .interruptDisable => 2
  | .decimalMode => 3
  | .breakBit => 4
  | .unused => 5
  | .overflow => 6
  | .negative => 7

/-- A flag of a status byte. -/
def flagOf (p : Byte) (f : Flag) : Bool := p.getLsbD (flagBit f)

/-- `P[i] <- b`: one status bit written, the other seven kept (R10). -/
def setFlag (p : Byte) (f : Flag) (b : Bool) : Byte :=
  if b then p ||| (1#8 <<< flagBit f) else p &&& ~~~(1#8 <<< flagBit f)

/-- The flag policy on a status byte (R67): Z is 1 exactly when the result is `0x00`, N is the result's bit 7. -/
def zeroNegative (p r : Byte) : Byte :=
  setFlag (setFlag p .zero (r == 0x00#8)) .negative (r.getLsbD 7)

/-- `update_zero_and_negative(r)` (R67). -/
def State.updateZeroAndNegative (s : State) (r : Byte) : State :=
  s.writeP (zeroNegative s.p r)

end Sys2Proof.Machine
end

