-- ==== Sys2Proof/Machine/Increment.lean ====
section
/-! DEFINITION. The increment family (spec/44_increment.md). -/

namespace Sys2Proof.Machine

/-- `exec_INX` (R96): C and V are not written (R97). -/
def execInx (s : State) : Host.Outcome State Fault Refusal :=
  let s1 := s.writeX (aluInc s.x)
  let s2 := s1.updateZeroAndNegative s1.x
  .next (s2.enter .fetching)

end Sys2Proof.Machine
end

