-- ==== Sys2Proof/Machine/Operands.lean ====
section
/-! DEFINITION. The operand forms (spec/30_encoding.md R57 to R59): implied, with no operand byte, and immediate, the
byte at `PC` on entry to Dispatching. -/

namespace Sys2Proof.Machine

/-- The bytes at `PC` that the Dispatching transition may read as an operand: the one byte there, or none when `PC`
is out of bounds (R45, R93). -/
def State.operandStream (s : State) : List Byte :=
  (s.memRead s.pc).toList

/-- The bytes the Dispatching transition decodes: the latched opcode, then what stands at `PC` (R58, R78). -/
def State.dispatchBytes (s : State) : List Byte :=
  s.ir :: s.operandStream

/-- Consuming the operand byte of format IMM (R92, R93): the state with `PC` past it, or none when its index is out
of bounds. -/
def State.consumeOperand (s : State) : Option State :=
  if s.inBounds s.pc then some s.advancePc else none

end Sys2Proof.Machine
end

