-- ==== Sys2Proof/Machine/LoadTransfer.lean ====
section
/-! DEFINITION. The load and transfer family (spec/43_load_transfer.md). -/

namespace Sys2Proof.Machine

/-- `exec_LDA_imm` (R92) with the operand byte `imm8` that the decoder read at `PC`; OutOfBounds at the operand index
when there is no byte to consume there (R93). -/
def execLdaImm (imm8 : Byte) (s : State) : Host.Outcome State Fault Refusal :=
  match s.consumeOperand with
  | none => .next (s.raiseOutOfBounds s.pc)
  | some s1 =>
    let s2 := s1.writeA (aluPass imm8)
    let s3 := s2.updateZeroAndNegative s2.a
    .next (s3.enter .fetching)

/-- `exec_TAX` (R94). -/
def execTax (s : State) : Host.Outcome State Fault Refusal :=
  let s1 := s.writeX (aluPass s.a)
  let s2 := s1.updateZeroAndNegative s1.x
  .next (s2.enter .fetching)

end Sys2Proof.Machine
end

