-- ==== Sys2Proof/Machine/Dispatch.lean ====
section
/-! DEFINITION. The `exec_` bodies of the Dispatching transition, one arm per instruction (R78). -/

namespace Sys2Proof.Machine

def exec (i : Instr) (s : State) : Host.Outcome State Fault Refusal :=
  match i with
  | .brk => Sys2Proof.Machine.execBrk s
  | .ldaImm imm8 => Sys2Proof.Machine.execLdaImm imm8 s
  | .tax => Sys2Proof.Machine.execTax s
  | .inx => Sys2Proof.Machine.execInx s

end Sys2Proof.Machine
end

