-- ==== Sys2Proof/Machine/Transition.lean ====
section
/-! DEFINITION. The FSM's transition and what one clock edge does (spec/41_fetch_decode_execute.md R75 to R89;
spec/10_state.md R33). -/

namespace Sys2Proof.Machine

/-- Dispatching (R78): the decoded instruction runs whole; an opcode in no row raises UnimplementedOpcode (R80); an
LDA with no operand byte raises OutOfBounds at the operand index (R93). The last arm is never taken: the bytes begin
with `IR`. -/
def State.dispatchTransition (s : State) : Host.Outcome State Fault Refusal :=
  match decode s.dispatchBytes with
  | .instr i _ => exec i s
  | .unimplemented op => .next (s.raiseUnimplementedOpcode op)
  | .operandMissing _ => .next (s.raiseOutOfBounds s.pc)
  | .opcodeMissing => .next s

/-- One FSM transition; in Halted and Faulted there is none and nothing changes (R81, R82; log entry 3). -/
def State.fsmTransition (s : State) : Host.Outcome State Fault Refusal :=
  match s.fsm with
  | .fetching => .next s.fetchOpcode
  | .dispatching => s.dispatchTransition
  | .halted => .next s
  | .faulted => .next s

/-- What the edge does once the buffer is in place: reset wins over start (R33, R120), start acts only in Halted and
Faulted (R119, R120), and otherwise the FSM makes its transition. -/
def hostOrFsm (e : HostInput) (s : State) : Host.Outcome State Fault Refusal :=
  if e.rst then .next s.resetAction
  else if e.start && s.fsm.terminal then .next s.startAction
  else s.fsmTransition

/-- One rising clock edge with the input `e` (R33). -/
def clockEdge (e : HostInput) (s : State) : Host.Outcome State Fault Refusal :=
  match hostSupply e s with
  | .next s1 => hostOrFsm e s1
  | .fault r => .fault r
  | .refused r => .refused r

end Sys2Proof.Machine
end

