-- ==== Sys2Proof/Machine/Step.lean ====
section
/-! DEFINITION. One step is one rising clock edge with the host's input of that edge (R33; log entries 1 and 2). -/

namespace Sys2Proof.Machine

/-- One clock edge: the host's input is taken from `inputs`, then the edge acts. -/
def step (s : State) : Host.Outcome State Fault Refusal :=
  clockEdge s.nextInput s.takeInput

/-- The instruction whose table word is `w`, placed at `PC` and fetched, so that the very next step dispatches it
(log entry 8). -/
def State.withFetchWord (s : State) (nbits w : Nat) : State :=
  (s.placeWord nbits w).fetchOpcode

end Sys2Proof.Machine
end

