-- ==== Sys2Proof/Safety.lean ====
section
/-! DEFINITION. The terms in which claims about the block are made: a quiet edge, a run, the end of a run, and the
invariants of a well-formed block. -/

namespace Sys2Proof.Machine

/-- The host drives nothing at the coming edge, so the FSM makes its transition. -/
abbrev Quiet (s : State) : Prop := s.nextInput = quietInput

/-- `k` steps from `s`, stopping at the first fault or refusal (`runSteps_eq_coreRun`: as the host's interface runs
the machine). -/
def runSteps : Nat → State → Host.Outcome State Fault Refusal
  | 0, s => .next s
  | k + 1, s =>
    match step s with
    | .next t => runSteps k t
    | .fault r => .fault r
    | .refused r => .refused r

/-- A running state of the FSM (R75). -/
abbrev Running (s : State) : Prop := s.fsm = .fetching ∨ s.fsm = .dispatching

/-- A clean end of a run (R86). -/
abbrev EndedCleanly (s : State) : Prop := s.fsm = .halted ∧ s.faultKind = .none

/-- The end of a run in a fault (R86, R105). -/
abbrev EndedInFault (s : State) : Prop := s.fsm = .faulted ∧ s.faultKind ≠ .none

/-- The bytes at index `i` and after it, as far as the decoder can look and the buffer reaches. -/
def State.bytesAt (s : State) (i : Word) : List Byte :=
  if i.toNat < s.progLen then
    s.prog.read i.toNat ::
      (if (i + 1#16).toNat < s.progLen then [s.prog.read (i + 1#16).toNat] else [])
  else []

/-- The closed form of the flag policy, as R68 writes it: `(P_old & 0x7D) | (N << 7) | (Z << 1)`. -/
def closedFlags (p r : Byte) : Byte :=
  (p &&& 0x7D#8) ||| ((if r.getLsbD 7 then 1#8 else 0#8) <<< 7) ||| ((if r = 0x00#8 then 1#8 else 0#8) <<< 1)

/-- The buffer and its length are well formed: canonical, no cell at or above `PROG_LEN`, and `PROG_LEN` at most
65536 (R43; log entry 4). -/
structure BufferInv (s : State) : Prop where
  canonical : s.prog.wf
  cells_in_bounds : ∀ c ∈ s.prog, c.1 < s.progLen
  length_le : s.progLen ≤ 65536

/-- The control state is one that the rules allow. -/
structure ControlInv (s : State) : Prop where
  /-- R31: no fault is recorded outside Faulted. -/
  no_fault_unless_faulted : s.fsm ≠ .faulted → s.faultKind = .none
  /-- R105: Faulted holds the record of its fault. -/
  fault_when_faulted : s.fsm = .faulted → s.faultKind ≠ .none
  /-- R30: the record of no fault is `0x0000`. -/
  info_of_none : s.faultKind = .none → s.faultInfo = 0x0000#16
  /-- R99, R102: an OutOfBounds record holds the index, where `PC` stays. -/
  info_of_out_of_bounds : s.faultKind = .outOfBounds → s.faultInfo = s.pc
  /-- R100: an UnimplementedOpcode record holds the opcode, which is in no row of the map. -/
  info_of_unimplemented : s.faultKind = .unimplementedOpcode →
    s.faultInfo = s.ir.setWidth 16 ∧ decodeOpcode s.ir = none
  /-- R20: in Dispatching, `PC` is one past the in-bounds opcode that `IR` holds. -/
  dispatching_after_opcode : s.fsm = .dispatching →
    (s.pc - 1#16).toNat < s.progLen ∧ s.prog.read (s.pc - 1#16).toNat = s.ir
  /-- R90: Halted is entered by BRK only. -/
  halted_by_brk : s.fsm = .halted → s.ir = 0x00#8

/-- The status register as every run from reset leaves it: the unwritten bits are 0 (R35), and Z and N are never both
1 (R67). -/
structure FlagInv (s : State) : Prop where
  unwritten_clear : s.p &&& 0x7D#8 = 0x00#8
  not_zero_and_negative : ¬ (flagOf s.p .zero = true ∧ flagOf s.p .negative = true)

end Sys2Proof.Machine
end

