-- ==== Sys2Proof/Certificates/Slice0/Obligations.lean ====
section
/-! DEFINITION. The statements for the provers. A premise `s.inputs = []` or `Quiet s` says that the host drives
nothing (log entry 2); one step is one clock edge (log entry 1). -/

open Sys2Proof Sys2Proof.Machine

/-! ### Reset, start and the host's supply of a program -/

/-- R36: the reset value of every state element. (`prog`, `progLen` and `inputs` have none in the spec and are not
spoken of here: log entries 2 and 5.) -/
def Obligations.ResetStateHoldsSpecValues : Prop :=
  State.reset.a = 0x00#8 ∧ State.reset.x = 0x00#8 ∧ State.reset.p = 0x00#8 ∧ State.reset.pc = 0x0000#16 ∧
  State.reset.fsm = .fetching ∧ State.reset.ir = 0x00#8 ∧ State.reset.faultKind = .none ∧
  State.reset.faultInfo = 0x0000#16

/-- R117: `rst` at an edge at which no buffer is supplied sets every state element to its reset value, in any state and
whatever `start` is. (The reset edge that also supplies a buffer: SuppliedBufferIsReadBack.) -/
def Obligations.ResetActionSetsEveryElement : Prop :=
  ∀ (s : State) (st : Bool) (es : List HostInput), s.inputs = ⟨true, st, none⟩ :: es →
    step s = .next { s with
      a := 0x00#8, x := 0x00#8, p := 0x00#8, pc := 0x0000#16, fsm := .fetching, ir := 0x00#8,
      faultKind := .none, faultInfo := 0x0000#16, inputs := es }

/-- R119: `start` in Halted or Faulted, at an edge at which no buffer is supplied, begins a new run at index 0 and keeps
`A`, `X`, `P` and `IR`. (The start edge that also supplies a buffer: SuppliedBufferIsReadBack.) -/
def Obligations.StartActionBeginsNewRun : Prop :=
  ∀ (s : State) (es : List HostInput), s.inputs = ⟨false, true, none⟩ :: es →
    (s.fsm = .halted ∨ s.fsm = .faulted) →
    step s = .next { s with
      pc := 0x0000#16, fsm := .fetching, faultKind := .none, faultInfo := 0x0000#16, inputs := es }

/-- R120: while the block runs, an edge with `start` is an edge without it; with `rst` and `start` both 1, reset is
taken. Both hold whatever the host supplies at the edge; the reset is written out where it supplies nothing. -/
def Obligations.StartIgnoredWhileRunningAndResetWins : Prop :=
  (∀ (s : State) (b : Option (List Byte)) (es : List HostInput), Running s →
    step { s with inputs := ⟨false, true, b⟩ :: es } = step { s with inputs := ⟨false, false, b⟩ :: es }) ∧
  (∀ (s : State) (b : Option (List Byte)) (es : List HostInput),
    step { s with inputs := ⟨true, true, b⟩ :: es } = step { s with inputs := ⟨true, false, b⟩ :: es }) ∧
  (∀ (s : State) (es : List HostInput),
    step { s with inputs := ⟨true, true, none⟩ :: es } =
      .next { s with
        a := 0x00#8, x := 0x00#8, p := 0x00#8, pc := 0x0000#16, fsm := .fetching, ir := 0x00#8,
        faultKind := .none, faultInfo := 0x0000#16, inputs := es })

/-- R81, R82, R115: in Halted and Faulted a quiet edge changes nothing, and only reset or start leaves them. That such
an edge is answered with a next state is the model's choice (log entry 3), so the statement is derived. -/
def Obligations.TerminalStatesChangeNothing : Prop :=
  (∀ s : State, Quiet s → (s.fsm = .halted ∨ s.fsm = .faulted) →
    step s = .next { s with inputs := s.inputs.tail }) ∧
  (∀ s t : State, (s.fsm = .halted ∨ s.fsm = .faulted) → step s = .next t → t.fsm ≠ s.fsm →
    s.nextInput.rst = true ∨ s.nextInput.start = true)

/-- R43: a buffer of more than 65536 bytes is refused, whatever else the host drives and in every state. The form of
the host's supply is the model's choice (log entry 7). -/
def Obligations.OversizedBufferRefused : Prop :=
  ∀ (s : State) (r st : Bool) (bytes : List Byte) (es : List HostInput),
    s.inputs = ⟨r, st, some bytes⟩ :: es → 65536 < bytes.length →
    step s = .refused .progLenOutOfRange

/-- R127: the host has no move that changes the buffer during a run; the model answers an attempt with a fault of its
own name (the model's choice, log entry 6). -/
def Obligations.BufferChangeDuringRunStops : Prop :=
  ∀ (s : State) (st : Bool) (bytes : List Byte) (es : List HostInput),
    s.inputs = ⟨false, st, some bytes⟩ :: es → bytes.length ≤ 65536 → Running s →
    step s = .fault .bufferChangedDuringRun

/-- R39, R43, R117, R119, R124: a buffer of at most 65536 bytes, the empty one included, is taken between runs (under
`rst`, or in Halted or Faulted), every index below its length then reads the host's byte, and the edge's whole next
state is that of reset, of start, or of neither, with that buffer in place. The model's choices are the form of the
supply (log entries 6 and 7), the canonical form of the buffer (log entry 4), and that an edge with neither reset nor
start is answered with a next state (log entry 3). -/
def Obligations.SuppliedBufferIsReadBack : Prop :=
  ∀ (s : State) (r st : Bool) (bytes : List Byte) (es : List HostInput),
    s.inputs = ⟨r, st, some bytes⟩ :: es → bytes.length ≤ 65536 →
    (r = true ∨ s.fsm = .halted ∨ s.fsm = .faulted) →
    ∃ m : Memory,
      (∀ (i : Nat) (h : i < bytes.length), Memory.read m i = bytes[i]) ∧
      Memory.wf m ∧ (∀ c ∈ m, c.1 < bytes.length) ∧
      step s = .next (
        if r = true then
          { s with
            a := 0x00#8, x := 0x00#8, p := 0x00#8, pc := 0x0000#16, fsm := .fetching, ir := 0x00#8,
            faultKind := .none, faultInfo := 0x0000#16, prog := m, progLen := bytes.length, inputs := es }
        else if st = true then
          { s with
            pc := 0x0000#16, fsm := .fetching, faultKind := .none, faultInfo := 0x0000#16,
            prog := m, progLen := bytes.length, inputs := es }
        else { s with prog := m, progLen := bytes.length, inputs := es })

/-! ### The FSM -/

/-- R76, R77: the Fetching transition, and the read it issues or does not issue. `PC` wraps from `0xFFFF` to `0x0000`,
and an index equal to `PROG_LEN` is out of bounds (R44). -/
def Obligations.FetchingReadsAdvancesOrFaults : Prop :=
  ∀ s : State, s.fsm = .fetching → Quiet s →
    s.fsmRead = (if s.pc.toNat < s.progLen then some s.pc else none) ∧
    step s =
      if s.pc.toNat < s.progLen then
        .next { s with
          ir := s.prog.read s.pc.toNat, pc := s.pc + 1#16, fsm := .dispatching, inputs := s.inputs.tail }
      else
        .next { s with
          faultKind := .outOfBounds, faultInfo := s.pc, fsm := .faulted, inputs := s.inputs.tail }

/-- R80: an opcode that is none of the four faults in Dispatching, with its byte in the record, `PC` as the fetch left
it, and no read. -/
def Obligations.UnimplementedOpcodeFaults : Prop :=
  ∀ s : State, s.fsm = .dispatching → Quiet s →
    s.ir ≠ 0x00#8 → s.ir ≠ 0xA9#8 → s.ir ≠ 0xAA#8 → s.ir ≠ 0xE8#8 →
    step s = .next { s with
      faultKind := .unimplementedOpcode, faultInfo := s.ir.setWidth 16, fsm := .faulted,
      inputs := s.inputs.tail } ∧
    s.fsmRead = none

/-- When the bytes at `PC` decode to an instruction, the block fetches its opcode in one step and runs `exec` of it in
the next: two steps an instruction. -/
def Obligations.StepsRunTheDecodedInstruction : Prop :=
  (∀ (s : State) (i : Instr) (rest : List Byte), s.fsm = .fetching → s.inputs = [] →
    decode (s.bytesAt s.pc) = .instr i rest →
    step s = .next { s with ir := s.prog.read s.pc.toNat, pc := s.pc + 1#16, fsm := .dispatching } ∧
    step { s with ir := s.prog.read s.pc.toNat, pc := s.pc + 1#16, fsm := .dispatching } =
      exec i { s with ir := s.prog.read s.pc.toNat, pc := s.pc + 1#16, fsm := .dispatching }) ∧
  (∀ (s : State) (i : Instr) (rest : List Byte), s.fsm = .dispatching → Quiet s →
    decode (s.ir :: (if s.pc.toNat < s.progLen then [s.prog.read s.pc.toNat] else [])) = .instr i rest →
    step s = exec i { s with inputs := s.inputs.tail })

/-- R21, R79: where each instruction that completes leaves `PC` and the FSM, after its two transitions. -/
def Obligations.CompletedInstructionAdvancesPc : Prop :=
  ∀ (s : State) (i : Instr) (rest : List Byte), s.fsm = .fetching → s.inputs = [] →
    decode (s.bytesAt s.pc) = .instr i rest →
    ∃ u t, step s = .next u ∧ u.fsm = .dispatching ∧ step u = .next t ∧
      match i with
      | .brk => t.pc = s.pc + 1#16 ∧ t.fsm = .halted
      | .ldaImm _ => t.pc = s.pc + 2#16 ∧ t.fsm = .fetching
      | .tax => t.pc = s.pc + 1#16 ∧ t.fsm = .fetching
      | .inx => t.pc = s.pc + 1#16 ∧ t.fsm = .fetching

/-- R75, R85: from each FSM state, the states a quiet edge can lead to (a terminal state stays: log entry 3). -/
def Obligations.FsmFollowsItsTransitions : Prop :=
  ∀ s t : State, Quiet s → step s = .next t →
    match s.fsm with
    | .fetching => t.fsm = .dispatching ∨ t.fsm = .faulted
    | .dispatching => t.fsm = .fetching ∨ t.fsm = .halted ∨ t.fsm = .faulted
    | .halted => t.fsm = .halted
    | .faulted => t.fsm = .faulted

/-- With no buffer supplied at the edge, a step always answers a next state: no instruction, opcode, index, reset or start
stops the model. In Fetching and Dispatching that is the successor R84 gives; R84 gives Halted and Faulted none, and that
a quiet edge is answered with a next state there is the model's choice (log entry 3). -/
def Obligations.StepAnswersNextWithoutBufferSupply : Prop :=
  ∀ s : State, s.nextInput.buffer = none → ∃ t, step s = .next t

/-! ### The instructions -/

/-- R90, R91: BRK's encoding, and its effect in every state: Halted, and nothing else. No byte is read in its
Dispatching transition, and none once it has halted; fetched at any in-bounds index, it leaves `PC` one past it
(modulo `2^16`) and `A`, `X` and `P` as they were. -/
def Obligations.BrkHaltsAndChangesNothingElse : Prop :=
  (∀ rest : List Byte, decode (0x00#8 :: rest) = .instr .brk rest) ∧
  (∀ s : State, exec .brk s = .next { s with fsm := .halted }) ∧
  (∀ s : State, (s.fsm = .dispatching ∧ s.ir = 0x00#8) ∨ s.fsm = .halted → s.fsmRead = none) ∧
  (∀ s : State, s.fsm = .fetching → s.inputs = [] → s.pc.toNat < s.progLen → s.prog.read s.pc.toNat = 0x00#8 →
    runSteps 2 s = .next { s with ir := 0x00#8, pc := s.pc + 1#16, fsm := .halted })

/-- R92: LDA's encoding, and its effect where its operand index is in bounds, with the flags in the closed form of
R68; the operand is the byte at `PC` on entry to Dispatching. -/
def Obligations.LdaImmLoadsAndSetsFlags : Prop :=
  (∀ (v : Byte) (rest : List Byte), decode (0xA9#8 :: v :: rest) = .instr (.ldaImm v) rest) ∧
  (∀ (v : Byte) (s : State), s.pc.toNat < s.progLen →
    exec (.ldaImm v) s =
      .next { s with a := v, p := closedFlags s.p v, pc := s.pc + 1#16, fsm := .fetching }) ∧
  (∀ s : State, s.fsm = .dispatching → s.ir = 0xA9#8 → Quiet s → s.pc.toNat < s.progLen →
    step s = .next { s with
      a := s.prog.read s.pc.toNat, p := closedFlags s.p (s.prog.read s.pc.toNat), pc := s.pc + 1#16,
      fsm := .fetching, inputs := s.inputs.tail }) ∧
  (∀ (v : Byte) (s : State), s.progLen ≤ s.pc.toNat →
    exec (.ldaImm v) s = .next { s with faultKind := .outOfBounds, faultInfo := s.pc, fsm := .faulted })

/-- R93: LDA with its operand index out of bounds: OutOfBounds at that index, no read, nothing else changed. -/
def Obligations.LdaOperandOutOfBoundsFaults : Prop :=
  (∀ (v : Byte) (s : State), s.progLen ≤ s.pc.toNat →
    exec (.ldaImm v) s = .next { s with faultKind := .outOfBounds, faultInfo := s.pc, fsm := .faulted }) ∧
  (∀ s : State, s.fsm = .dispatching → s.ir = 0xA9#8 → Quiet s → s.progLen ≤ s.pc.toNat →
    step s = .next { s with
      faultKind := .outOfBounds, faultInfo := s.pc, fsm := .faulted, inputs := s.inputs.tail } ∧
    s.fsmRead = none)

/-- R94: TAX's encoding, and its effect in every state, with the flags in the closed form of R68. -/
def Obligations.TaxCopiesAndSetsFlags : Prop :=
  (∀ rest : List Byte, decode (0xAA#8 :: rest) = .instr .tax rest) ∧
  (∀ s : State, exec .tax s = .next { s with x := s.a, p := closedFlags s.p s.a, fsm := .fetching })

/-- R96, R97: INX's encoding, and its effect in every state: the index register plus one modulo 256, Z and N from it,
and no Carry or Overflow. -/
def Obligations.InxIncrementsAndSetsFlags : Prop :=
  (∀ rest : List Byte, decode (0xE8#8 :: rest) = .instr .inx rest) ∧
  (∀ s : State,
    exec .inx s =
      .next { s with
        x := BitVec.ofNat 8 ((s.x.toNat + 1) % 256)
        p := closedFlags s.p (BitVec.ofNat 8 ((s.x.toNat + 1) % 256))
        fsm := .fetching }) ∧
  (∀ s t : State, exec .inx s = .next t →
    flagOf t.p .carry = flagOf s.p .carry ∧ flagOf t.p .overflow = flagOf s.p .overflow)

/-- R67, R68, R69: the flag policy is the closed form, sets Z and N as the rule says, and leaves the other six bits and
every other piece of state. -/
def Obligations.FlagPolicyWritesOnlyZeroAndNegative : Prop :=
  ∀ (s : State) (r : Byte),
    s.updateZeroAndNegative r = { s with p := (s.updateZeroAndNegative r).p } ∧
    (s.updateZeroAndNegative r).p = closedFlags s.p r ∧
    flagOf (s.updateZeroAndNegative r).p .zero = decide (r = 0x00#8) ∧
    flagOf (s.updateZeroAndNegative r).p .negative = r.getLsbD 7 ∧
    ∀ f : Flag, f ≠ .zero → f ≠ .negative → flagOf (s.updateZeroAndNegative r).p f = flagOf s.p f

/-- What each instruction leaves as it was. No form stores to memory. -/
def Obligations.InstructionsLeaveTheRestUnchanged : Prop :=
  ∀ (i : Instr) (s t : State), exec i s = .next t →
    t.ir = s.ir ∧ t.prog = s.prog ∧ t.progLen = s.progLen ∧ t.inputs = s.inputs ∧
    (∀ n : Nat, t.prog.read n = s.prog.read n) ∧
    (∀ f : Flag, f ≠ .zero → f ≠ .negative → flagOf t.p f = flagOf s.p f) ∧
    match i with
    | .brk =>
      t.a = s.a ∧ t.x = s.x ∧ t.p = s.p ∧ t.pc = s.pc ∧ t.faultKind = s.faultKind ∧ t.faultInfo = s.faultInfo
    | .ldaImm _ =>
      t.x = s.x ∧
      (s.pc.toNat < s.progLen → t.faultKind = s.faultKind ∧ t.faultInfo = s.faultInfo) ∧
      (s.progLen ≤ s.pc.toNat → t.a = s.a ∧ t.p = s.p ∧ t.pc = s.pc)
    | .tax => t.a = s.a ∧ t.pc = s.pc ∧ t.faultKind = s.faultKind ∧ t.faultInfo = s.faultInfo
    | .inx => t.a = s.a ∧ t.pc = s.pc ∧ t.faultKind = s.faultKind ∧ t.faultInfo = s.faultInfo

/-- R74: an instruction's result and flags depend on its operand and on `A`, `X` and `P` alone, not on `PC`, `fsm` or
anything before; the premise on LDA is that its operand is there to be read (R93). -/
def Obligations.ResultsDependOnOperandAndRegistersOnly : Prop :=
  ∀ (i : Instr) (s s' t t' : State), s.a = s'.a → s.x = s'.x → s.p = s'.p →
    (∀ v, i = .ldaImm v → s.pc.toNat < s.progLen ∧ s'.pc.toNat < s'.progLen) →
    exec i s = .next t → exec i s' = .next t' →
    t.a = t'.a ∧ t.x = t'.x ∧ t.p = t'.p

/-- R83: a handler writes `PC` only to consume an operand byte, which only LDA does, by one. -/
def Obligations.HandlersAdvancePcOnlyForAnOperand : Prop :=
  ∀ (i : Instr) (s t : State), exec i s = .next t → t.pc ≠ s.pc →
    (∃ v, i = .ldaImm v) ∧ t.pc = s.pc + 1#16

/-! ### Rules of the whole machine -/

/-- R26: bits 0 and 2 to 6 of `P` are written by nothing but reset, and have no effect: from two states that differ in
those bits alone a step gives states that differ in those bits alone. -/
def Obligations.UnwrittenFlagsKeptAndWithoutEffect : Prop :=
  (∀ s t : State, step s = .next t → s.nextInput.rst = false → t.p &&& 0x7D#8 = s.p &&& 0x7D#8) ∧
  (∀ (s t : State) (q : Byte), q &&& 0x82#8 = s.p &&& 0x82#8 → step s = .next t →
    ∃ q', step { s with p := q } = .next { t with p := q' } ∧ q' &&& 0x82#8 = t.p &&& 0x82#8)

/-- R41: no FSM transition writes the program buffer, and a step changes it only where the host supplies a new one. -/
def Obligations.ProgramBufferIsReadOnly : Prop :=
  (∀ s t : State, s.fsmTransition = .next t → t.prog = s.prog ∧ t.progLen = s.progLen) ∧
  (∀ s t : State, s.nextInput.buffer = none → step s = .next t →
    t.prog = s.prog ∧ t.progLen = s.progLen ∧ ∀ n : Nat, t.prog.read n = s.prog.read n)

/-- R40: the two accesses to the buffer, each of one byte at the current `PC`, and only in bounds. -/
def Obligations.OnlyTwoReadsBothAtPc : Prop :=
  ∀ (s : State) (i : Word),
    s.fsmRead = some i ↔
      i = s.pc ∧ i.toNat < s.progLen ∧ (s.fsm = .fetching ∨ (s.fsm = .dispatching ∧ s.ir = 0xA9#8))

/-- R89: a transition reads at most one byte of the buffer: with any other buffer of the same length that agrees at the
one index read, the step is the same but for the buffer. -/
def Obligations.StepDependsOnAtMostOneByte : Prop :=
  ∀ (s t : State) (m : Memory), s.nextInput.buffer = none →
    (∀ i : Word, s.fsmRead = some i → Memory.read m i.toNat = Memory.read s.prog i.toNat) →
    step s = .next t → step { s with prog := m } = .next { t with prog := m }

/-- R10: `PC` is written with 0 by reset and start and with `PC + 1` by a step that reads the buffer, and by nothing
else. -/
def Obligations.PcMovesOnlyByReadsResetAndStart : Prop :=
  ∀ s t : State, step s = .next t →
    t.pc =
      if s.nextInput.rst = true ∨ (s.nextInput.start = true ∧ (s.fsm = .halted ∨ s.fsm = .faulted)) then 0x0000#16
      else if s.fsmRead ≠ none then s.pc + 1#16
      else s.pc

/-- R16, R17, R24, R25, R28: which steps can change `A`, `X`, `P` and `IR`, apart from reset. -/
def Obligations.RegistersAreWrittenOnlyByTheirWriters : Prop :=
  ∀ s t : State, step s = .next t → s.nextInput.rst = false →
    (t.a ≠ s.a → s.fsm = .dispatching ∧ s.ir = 0xA9#8) ∧
    (t.x ≠ s.x → s.fsm = .dispatching ∧ (s.ir = 0xAA#8 ∨ s.ir = 0xE8#8)) ∧
    (t.p ≠ s.p → s.fsm = .dispatching ∧ (s.ir = 0xA9#8 ∨ s.ir = 0xAA#8 ∨ s.ir = 0xE8#8)) ∧
    (t.ir ≠ s.ir → s.fsm = .fetching)

/-! ### Faults -/

/-- R102: from a Fetching state, an instruction that faults does so in one of the three cases of the table, with `PC`,
`IR` and the record as the table says and `A`, `X`, `P` as before. -/
def Obligations.FaultsArePrecise : Prop :=
  ∀ s t : State, s.fsm = .fetching → s.inputs = [] → runSteps 2 s = .next t → t.fsm = .faulted →
    t.a = s.a ∧ t.x = s.x ∧ t.p = s.p ∧
    ((s.progLen ≤ s.pc.toNat ∧
        t.pc = s.pc ∧ t.ir = s.ir ∧ t.faultKind = .outOfBounds ∧ t.faultInfo = s.pc) ∨
     (s.pc.toNat < s.progLen ∧ decodeOpcode (s.prog.read s.pc.toNat) = none ∧
        t.pc = s.pc + 1#16 ∧ t.ir = s.prog.read s.pc.toNat ∧ t.faultKind = .unimplementedOpcode ∧
        t.faultInfo = (s.prog.read s.pc.toNat).setWidth 16) ∨
     (s.pc.toNat < s.progLen ∧ s.prog.read s.pc.toNat = 0xA9#8 ∧ s.progLen ≤ (s.pc + 1#16).toNat ∧
        t.pc = s.pc + 1#16 ∧ t.ir = 0xA9#8 ∧ t.faultKind = .outOfBounds ∧ t.faultInfo = s.pc + 1#16))

/-- R99, R100: where each fault is raised and what it records; and Halted is entered by BRK alone. -/
def Obligations.RunEndsOnlyByBrkOrTheTwoFaults : Prop :=
  ∀ s t : State, Running s → step s = .next t →
    (t.fsm = .halted → s.fsm = .dispatching ∧ s.ir = 0x00#8) ∧
    (t.fsm = .faulted →
      (t.faultKind = .outOfBounds ∧ t.faultInfo = s.pc ∧ s.progLen ≤ s.pc.toNat ∧
        (s.fsm = .fetching ∨ (s.fsm = .dispatching ∧ s.ir = 0xA9#8))) ∨
      (t.faultKind = .unimplementedOpcode ∧ t.faultInfo = s.ir.setWidth 16 ∧ s.fsm = .dispatching ∧
        s.ir ≠ 0x00#8 ∧ s.ir ≠ 0xA9#8 ∧ s.ir ≠ 0xAA#8 ∧ s.ir ≠ 0xE8#8))

/-- R105: a run that BRK ends is clean, with no fault recorded, and a run that a fault ends has its fault recorded. The
premise that no fault is recorded in a running state is kept by every step (FaultRecordChangesInThreeWays). -/
def Obligations.HaltAndFaultEndARunDifferently : Prop :=
  ∀ s t : State, Running s → s.faultKind = .none → step s = .next t →
    (t.fsm = .halted → EndedCleanly t) ∧ (t.fsm = .faulted → EndedInFault t)

/-- R31: the fault record changes in three ways only, and outside Faulted it holds no fault. -/
def Obligations.FaultRecordChangesInThreeWays : Prop :=
  (∀ s t : State, step s = .next t →
    (t.faultKind = s.faultKind ∧ t.faultInfo = s.faultInfo) ∨
    (Running s ∧ t.fsm = .faulted ∧ t.faultKind ≠ .none) ∨
    ((s.nextInput.rst = true ∨ (s.nextInput.start = true ∧ (s.fsm = .halted ∨ s.fsm = .faulted))) ∧
      t.faultKind = .none ∧ t.faultInfo = 0x0000#16)) ∧
  (∀ s t : State, (s.fsm ≠ .faulted → s.faultKind = .none) → step s = .next t →
    t.fsm ≠ .faulted → t.faultKind = .none)

/-! ### Invariants -/

/-- The three invariants hold right after reset. (That the buffer is empty there, and the canonical form in which it is
held, are the model's choice: log entries 5 and 4.) -/
def Obligations.ResetMeetsTheInvariants : Prop :=
  BufferInv State.reset ∧ ControlInv State.reset ∧ FlagInv State.reset

/-- Every step, whatever the host drives, keeps the buffer's canonical form and length bound and the agreement of
`fsm`, `IR`, `PC`, the buffer and the fault record. BufferInv's canonical form and its cells below `PROG_LEN` are the
model's choice (log entry 4); the length bound is R43, and ControlInv names the rule of each of its clauses. -/
def Obligations.EveryStepKeepsBufferAndControl : Prop :=
  ∀ s t : State, BufferInv s → ControlInv s → step s = .next t → BufferInv t ∧ ControlInv t

/-- R35, R67: every step keeps the unwritten bits of `P` at 0, and Z and N never both 1. -/
def Obligations.EveryStepKeepsStatusFlags : Prop :=
  ∀ s t : State, FlagInv s → step s = .next t → FlagInv t

/-! ### Runs -/

/-- R87: with `PROG_LEN` at most 65535 a run ends, within `2 * PROG_LEN + 2` transitions, and at most `PROG_LEN`
instructions complete and return to Fetching. -/
def Obligations.ShorterBufferRunEnds : Prop :=
  ∀ s : State, s.fsm = .fetching → s.pc = 0x0000#16 → s.inputs = [] → s.progLen ≤ 65535 →
    (∃ k t, k ≤ 2 * s.progLen + 2 ∧ runSteps k s = .next t ∧ (t.fsm = .halted ∨ t.fsm = .faulted)) ∧
    (∀ k t, runSteps (2 * k) s = .next t → t.fsm = .fetching → k ≤ s.progLen)

/-- R88: with `PROG_LEN` 65536, a run that meets no BRK and no unimplemented opcode on its path never ends. -/
def Obligations.FullBufferRunMayNeverEnd : Prop :=
  ∀ s : State, s.fsm = .fetching → s.inputs = [] → s.progLen = 65536 →
    (∀ k u, runSteps k s = .next u → u.fsm = .dispatching →
      u.ir = 0xA9#8 ∨ u.ir = 0xAA#8 ∨ u.ir = 0xE8#8) →
    ∀ k, ∃ t, runSteps k s = .next t ∧ Running t

/-! ### The encoding and the outputs -/

/-- Decode and encode agree, in both directions and whatever follows: the decoder reads an instruction from exactly the
byte sequences that begin with its encoding. -/
def Obligations.DecodeAndEncodeAgree : Prop :=
  ∀ (bytes : List Byte) (i : Instr) (rest : List Byte),
    decode bytes = .instr i rest ↔ bytes = encode i ++ rest

/-- R62, R63: the 252 values outside the opcode map are refused by name, on the opcode byte alone. -/
def Obligations.UnimplementedOpcodesAreTheOtherValues : Prop :=
  (∀ (op : Byte) (rest : List Byte),
    decode (op :: rest) = .unimplemented op ↔
      (0x01 ≤ op.toNat ∧ op.toNat ≤ 0xA8) ∨ (0xAB ≤ op.toNat ∧ op.toNat ≤ 0xE7) ∨
        (0xE9 ≤ op.toNat ∧ op.toNat ≤ 0xFF)) ∧
  ((List.range 256).filter fun n => (decodeOpcode (BitVec.ofNat 8 n)).isNone).length = 252

/-- Words written out bit by bit from R57, R58 and R60. -/
def Obligations.SpecWordsDecode : Prop :=
  decode [0b00000000#8] = .instr .brk [] ∧
  decode [0b10101001#8, 0b10000000#8] = .instr (.ldaImm 0x80#8) [] ∧
  decode [0b10101010#8] = .instr .tax [] ∧
  decode [0b11101000#8] = .instr .inx [] ∧
  decode [0b11001001#8, 0b00000001#8] = .unimplemented 0xC9#8 ∧
  decodeTableWord 8 0b00000000 = some .brk ∧
  decodeTableWord 16 0b0000010110101001 = some (.ldaImm 0x05#8)

/-- R27, R29: the codes of `fsm` and `fault_kind` on the outputs, at reset and in every state; `0b11` is never on
`fault_kind_out`. -/
def Obligations.OutputCodes : Prop :=
  State.reset.outputs.fsmOut = 0b00#2 ∧ State.reset.outputs.faultKindOut = 0b00#2 ∧
  ∀ s : State,
    s.outputs.fsmOut = (match s.fsm with
      | .fetching => 0b00#2 | .dispatching => 0b01#2 | .halted => 0b10#2 | .faulted => 0b11#2) ∧
    s.outputs.faultKindOut = (match s.faultKind with
      | .none => 0b00#2 | .outOfBounds => 0b01#2 | .unimplementedOpcode => 0b10#2) ∧
    s.outputs.faultKindOut ≠ 0b11#2
end

