-- ==== Sys2Proof/Laws/Memory.lean ====
section
/-! SUPPORT. The laws of the program buffer: what a read gives after a store or a supply, and that both keep the
canonical form. -/

namespace Sys2Proof.Machine

@[simp] theorem Memory.read_nil (i : Nat) : Memory.read [] i = Memory.unlisted := rfl

@[simp] theorem Memory.read_cons (k : Nat) (v : Byte) (m : Memory) (i : Nat) :
    Memory.read ((k, v) :: m) i = if k = i then v else m.read i := rfl

/-- An index below every listed one reads as unlisted. -/
theorem Memory.read_of_lt (m : Memory) (i : Nat) (h : ∀ c ∈ m, i < c.1) : m.read i = Memory.unlisted := by
  induction m with
  | nil => rfl
  | cons c m ih =>
    have hc : ¬ c.1 = i := Nat.ne_of_gt (h c (by simp))
    obtain ⟨k, v⟩ := c
    simp only [Memory.read_cons, hc, if_false]
    exact ih fun c hm => h c (List.mem_cons_of_mem _ hm)

/-- Every cell of a buffer after a store is the stored cell or an old one. -/
theorem Memory.mem_write (m : Memory) (i : Nat) (b : Byte) (c : Host.Cell) (h : c ∈ m.write i b) :
    (c = (i, b) ∧ b ≠ Memory.unlisted) ∨ c ∈ m := by
  induction m with
  | nil =>
    simp only [Memory.write] at h
    split at h <;> simp_all
  | cons d m ih =>
    obtain ⟨k, v⟩ := d
    simp only [Memory.write] at h
    split at h <;> [skip; split at h] <;> (try split at h) <;> simp only [List.mem_cons] at h ⊢ <;> tauto

/-- A store keeps the canonical form. -/
theorem Memory.wf_write (m : Memory) (i : Nat) (b : Byte) (h : m.wf) : (m.write i b).wf := by
  refine ⟨?_, fun c hc => ?_⟩
  · obtain ⟨hp, -⟩ := h
    induction m with
    | nil => simp only [Memory.write]; split <;> simp
    | cons d m ih =>
      obtain ⟨k, v⟩ := d
      obtain ⟨hk, hm⟩ := List.pairwise_cons.1 hp
      simp only [Memory.write]
      split
      · split
        · exact hp
        · refine List.pairwise_cons.2 ⟨fun c hc => ?_, hp⟩
          rcases List.mem_cons.1 hc with rfl | hc
          · assumption
          · exact Nat.lt_trans ‹i < k› (hk c hc)
      · split
        · subst_vars
          split
          · exact hm
          · exact List.pairwise_cons.2 ⟨hk, hm⟩
        · refine List.pairwise_cons.2 ⟨fun c hc => ?_, ih hm⟩
          rcases Memory.mem_write m i b c hc with ⟨rfl, -⟩ | hc
          · simp only; omega
          · exact hk c hc
  · rcases Memory.mem_write m i b c hc with ⟨rfl, hb⟩ | hc
    · exact hb
    · exact h.2 c hc

/-- A read after a store gives the stored byte at its index, and the old byte elsewhere. -/
theorem Memory.read_write (m : Memory) (i j : Nat) (b : Byte) (h : m.wf) :
    (m.write i b).read j = if i = j then b else m.read j := by
  obtain ⟨hp, -⟩ := h
  induction m with
  | nil =>
    simp only [Memory.write]
    split <;> simp_all
  | cons d m ih =>
    obtain ⟨k, v⟩ := d
    obtain ⟨hk, hm⟩ := List.pairwise_cons.1 hp
    have hi : i ≤ k → Memory.read m i = Memory.unlisted := fun hik =>
      Memory.read_of_lt m i fun c hc => Nat.lt_of_le_of_lt hik (hk c hc)
    simp only [Memory.write]
    rcases Nat.lt_trichotomy i k with h1 | h1 | h1
    · simp only [h1, if_true]
      by_cases hij : i = j
      · have hkj : ¬ k = j := by omega
        have := hi (by omega)
        split <;> simp_all
      · split <;> simp [hij]
    · subst h1
      have hu := hi (Nat.le_refl _)
      simp only [Nat.lt_irrefl, if_true, if_false]
      by_cases hij : i = j
      · subst hij; split <;> simp_all
      · split <;> simp [hij]
    · have h2 : ¬ i < k := by omega
      have h3 : ¬ i = k := by omega
      simp only [h2, h3, if_false, Memory.read_cons]
      by_cases hkj : k = j
      · have hij : ¬ i = j := by omega
        simp [hkj, hij]
      · simp only [hkj, if_false]; exact ih hm

/-- The cells of a supplied buffer. -/
theorem Memory.mem_ofBytes (bs : List Byte) (base : Nat) (c : Host.Cell) (h : c ∈ Memory.ofBytes base bs) :
    base ≤ c.1 ∧ c.1 < base + bs.length ∧ c.2 ≠ Memory.unlisted := by
  induction bs generalizing base with
  | nil => simp [Memory.ofBytes] at h
  | cons b bs ih =>
    simp only [Memory.ofBytes] at h
    split at h
    · obtain ⟨h1, h2, h3⟩ := ih _ h
      exact ⟨by omega, by simp only [List.length_cons]; omega, h3⟩
    · rcases List.mem_cons.1 h with rfl | h
      · simp_all
      · obtain ⟨h1, h2, h3⟩ := ih _ h
        exact ⟨by omega, by simp only [List.length_cons]; omega, h3⟩

/-- A supplied buffer is in canonical form. -/
theorem Memory.wf_ofBytes (bs : List Byte) (base : Nat) : (Memory.ofBytes base bs).wf := by
  refine ⟨?_, fun c hc => (Memory.mem_ofBytes bs base c hc).2.2⟩
  induction bs generalizing base with
  | nil => simp [Memory.ofBytes]
  | cons b bs ih =>
    simp only [Memory.ofBytes]
    split
    · exact ih _
    · refine List.pairwise_cons.2 ⟨fun c hc => ?_, ih _⟩
      exact (Memory.mem_ofBytes bs _ c hc).1

/-- A supplied buffer reads as the host's byte at every index it covers (R39). -/
theorem Memory.read_ofBytes (bs : List Byte) (base i : Nat) (h : i < bs.length) :
    (Memory.ofBytes base bs).read (base + i) = bs[i] := by
  induction bs generalizing base i with
  | nil => simp at h
  | cons b bs ih =>
    cases i with
    | zero =>
      have hlow := Memory.read_of_lt (Memory.ofBytes (base + 1) bs) base
        fun c hc => (Memory.mem_ofBytes bs (base + 1) c hc).1
      simp only [Memory.ofBytes]
      split <;> simp_all
    | succ i =>
      have hi := ih (base + 1) i (by simpa using h)
      rw [show base + 1 + i = base + (i + 1) by omega] at hi
      simp only [Memory.ofBytes]
      split <;> simp [hi]

theorem Memory.wf_nil : Memory.wf [] := by decide

/-- The buffer right after reset is in canonical form. -/
theorem reset_prog_wf : State.reset.prog.wf := Memory.wf_nil

/-- The host's placing of an instruction keeps the canonical form. -/
theorem placeWord_prog_wf (s : State) (nbits w : Nat) (h : s.prog.wf) : (s.placeWord nbits w).prog.wf :=
  Memory.wf_write _ _ _ (Memory.wf_write _ _ _ h)

/-- `MemRead` answers a byte exactly in bounds (R45). -/
theorem memRead_of_lt (s : State) (i : Word) (h : i.toNat < s.progLen) :
    s.memRead i = some (s.prog.read i.toNat) := by
  simp [State.memRead, State.inBounds, h]

theorem memRead_of_ge (s : State) (i : Word) (h : ¬ i.toNat < s.progLen) : s.memRead i = none := by
  simp [State.memRead, State.inBounds, h]

end Sys2Proof.Machine
end

