-- ==== Sys2Proof/Laws/State.lean ====
section
/-! SUPPORT. One lemma per field per update of State, so that no proof unfolds a record update. -/

namespace Sys2Proof.Machine

@[simp] theorem writeA_a (s : State) (v : Byte) : (s.writeA v).a = v := rfl
@[simp] theorem writeA_x (s : State) (v : Byte) : (s.writeA v).x = s.x := rfl
@[simp] theorem writeA_p (s : State) (v : Byte) : (s.writeA v).p = s.p := rfl
@[simp] theorem writeA_pc (s : State) (v : Byte) : (s.writeA v).pc = s.pc := rfl
@[simp] theorem writeA_fsm (s : State) (v : Byte) : (s.writeA v).fsm = s.fsm := rfl
@[simp] theorem writeA_ir (s : State) (v : Byte) : (s.writeA v).ir = s.ir := rfl
@[simp] theorem writeA_faultKind (s : State) (v : Byte) : (s.writeA v).faultKind = s.faultKind := rfl
@[simp] theorem writeA_faultInfo (s : State) (v : Byte) : (s.writeA v).faultInfo = s.faultInfo := rfl
@[simp] theorem writeA_prog (s : State) (v : Byte) : (s.writeA v).prog = s.prog := rfl
@[simp] theorem writeA_progLen (s : State) (v : Byte) : (s.writeA v).progLen = s.progLen := rfl
@[simp] theorem writeA_inputs (s : State) (v : Byte) : (s.writeA v).inputs = s.inputs := rfl

@[simp] theorem writeX_a (s : State) (v : Byte) : (s.writeX v).a = s.a := rfl
@[simp] theorem writeX_x (s : State) (v : Byte) : (s.writeX v).x = v := rfl
@[simp] theorem writeX_p (s : State) (v : Byte) : (s.writeX v).p = s.p := rfl
@[simp] theorem writeX_pc (s : State) (v : Byte) : (s.writeX v).pc = s.pc := rfl
@[simp] theorem writeX_fsm (s : State) (v : Byte) : (s.writeX v).fsm = s.fsm := rfl
@[simp] theorem writeX_ir (s : State) (v : Byte) : (s.writeX v).ir = s.ir := rfl
@[simp] theorem writeX_faultKind (s : State) (v : Byte) : (s.writeX v).faultKind = s.faultKind := rfl
@[simp] theorem writeX_faultInfo (s : State) (v : Byte) : (s.writeX v).faultInfo = s.faultInfo := rfl
@[simp] theorem writeX_prog (s : State) (v : Byte) : (s.writeX v).prog = s.prog := rfl
@[simp] theorem writeX_progLen (s : State) (v : Byte) : (s.writeX v).progLen = s.progLen := rfl
@[simp] theorem writeX_inputs (s : State) (v : Byte) : (s.writeX v).inputs = s.inputs := rfl

@[simp] theorem writeP_a (s : State) (v : Byte) : (s.writeP v).a = s.a := rfl
@[simp] theorem writeP_x (s : State) (v : Byte) : (s.writeP v).x = s.x := rfl
@[simp] theorem writeP_p (s : State) (v : Byte) : (s.writeP v).p = v := rfl
@[simp] theorem writeP_pc (s : State) (v : Byte) : (s.writeP v).pc = s.pc := rfl
@[simp] theorem writeP_fsm (s : State) (v : Byte) : (s.writeP v).fsm = s.fsm := rfl
@[simp] theorem writeP_ir (s : State) (v : Byte) : (s.writeP v).ir = s.ir := rfl
@[simp] theorem writeP_faultKind (s : State) (v : Byte) : (s.writeP v).faultKind = s.faultKind := rfl
@[simp] theorem writeP_faultInfo (s : State) (v : Byte) : (s.writeP v).faultInfo = s.faultInfo := rfl
@[simp] theorem writeP_prog (s : State) (v : Byte) : (s.writeP v).prog = s.prog := rfl
@[simp] theorem writeP_progLen (s : State) (v : Byte) : (s.writeP v).progLen = s.progLen := rfl
@[simp] theorem writeP_inputs (s : State) (v : Byte) : (s.writeP v).inputs = s.inputs := rfl

@[simp] theorem writePc_a (s : State) (v : Word) : (s.writePc v).a = s.a := rfl
@[simp] theorem writePc_x (s : State) (v : Word) : (s.writePc v).x = s.x := rfl
@[simp] theorem writePc_p (s : State) (v : Word) : (s.writePc v).p = s.p := rfl
@[simp] theorem writePc_pc (s : State) (v : Word) : (s.writePc v).pc = v := rfl
@[simp] theorem writePc_fsm (s : State) (v : Word) : (s.writePc v).fsm = s.fsm := rfl
@[simp] theorem writePc_ir (s : State) (v : Word) : (s.writePc v).ir = s.ir := rfl
@[simp] theorem writePc_faultKind (s : State) (v : Word) : (s.writePc v).faultKind = s.faultKind := rfl
@[simp] theorem writePc_faultInfo (s : State) (v : Word) : (s.writePc v).faultInfo = s.faultInfo := rfl
@[simp] theorem writePc_prog (s : State) (v : Word) : (s.writePc v).prog = s.prog := rfl
@[simp] theorem writePc_progLen (s : State) (v : Word) : (s.writePc v).progLen = s.progLen := rfl
@[simp] theorem writePc_inputs (s : State) (v : Word) : (s.writePc v).inputs = s.inputs := rfl

@[simp] theorem writeIr_a (s : State) (v : Byte) : (s.writeIr v).a = s.a := rfl
@[simp] theorem writeIr_x (s : State) (v : Byte) : (s.writeIr v).x = s.x := rfl
@[simp] theorem writeIr_p (s : State) (v : Byte) : (s.writeIr v).p = s.p := rfl
@[simp] theorem writeIr_pc (s : State) (v : Byte) : (s.writeIr v).pc = s.pc := rfl
@[simp] theorem writeIr_fsm (s : State) (v : Byte) : (s.writeIr v).fsm = s.fsm := rfl
@[simp] theorem writeIr_ir (s : State) (v : Byte) : (s.writeIr v).ir = v := rfl
@[simp] theorem writeIr_faultKind (s : State) (v : Byte) : (s.writeIr v).faultKind = s.faultKind := rfl
@[simp] theorem writeIr_faultInfo (s : State) (v : Byte) : (s.writeIr v).faultInfo = s.faultInfo := rfl
@[simp] theorem writeIr_prog (s : State) (v : Byte) : (s.writeIr v).prog = s.prog := rfl
@[simp] theorem writeIr_progLen (s : State) (v : Byte) : (s.writeIr v).progLen = s.progLen := rfl
@[simp] theorem writeIr_inputs (s : State) (v : Byte) : (s.writeIr v).inputs = s.inputs := rfl

@[simp] theorem enter_a (s : State) (q : Fsm) : (s.enter q).a = s.a := rfl
@[simp] theorem enter_x (s : State) (q : Fsm) : (s.enter q).x = s.x := rfl
@[simp] theorem enter_p (s : State) (q : Fsm) : (s.enter q).p = s.p := rfl
@[simp] theorem enter_pc (s : State) (q : Fsm) : (s.enter q).pc = s.pc := rfl
@[simp] theorem enter_fsm (s : State) (q : Fsm) : (s.enter q).fsm = q := rfl
@[simp] theorem enter_ir (s : State) (q : Fsm) : (s.enter q).ir = s.ir := rfl
@[simp] theorem enter_faultKind (s : State) (q : Fsm) : (s.enter q).faultKind = s.faultKind := rfl
@[simp] theorem enter_faultInfo (s : State) (q : Fsm) : (s.enter q).faultInfo = s.faultInfo := rfl
@[simp] theorem enter_prog (s : State) (q : Fsm) : (s.enter q).prog = s.prog := rfl
@[simp] theorem enter_progLen (s : State) (q : Fsm) : (s.enter q).progLen = s.progLen := rfl
@[simp] theorem enter_inputs (s : State) (q : Fsm) : (s.enter q).inputs = s.inputs := rfl

@[simp] theorem recordFault_a (s : State) (k : FaultKind) (info : Word) : (s.recordFault k info).a = s.a := rfl
@[simp] theorem recordFault_x (s : State) (k : FaultKind) (info : Word) : (s.recordFault k info).x = s.x := rfl
@[simp] theorem recordFault_p (s : State) (k : FaultKind) (info : Word) : (s.recordFault k info).p = s.p := rfl
@[simp] theorem recordFault_pc (s : State) (k : FaultKind) (info : Word) : (s.recordFault k info).pc = s.pc := rfl
@[simp] theorem recordFault_fsm (s : State) (k : FaultKind) (info : Word) : (s.recordFault k info).fsm = s.fsm := rfl
@[simp] theorem recordFault_ir (s : State) (k : FaultKind) (info : Word) : (s.recordFault k info).ir = s.ir := rfl
@[simp] theorem recordFault_faultKind (s : State) (k : FaultKind) (info : Word) : (s.recordFault k info).faultKind = k := rfl
@[simp] theorem recordFault_faultInfo (s : State) (k : FaultKind) (info : Word) : (s.recordFault k info).faultInfo = info := rfl
@[simp] theorem recordFault_prog (s : State) (k : FaultKind) (info : Word) : (s.recordFault k info).prog = s.prog := rfl
@[simp] theorem recordFault_progLen (s : State) (k : FaultKind) (info : Word) : (s.recordFault k info).progLen = s.progLen := rfl
@[simp] theorem recordFault_inputs (s : State) (k : FaultKind) (info : Word) : (s.recordFault k info).inputs = s.inputs := rfl

@[simp] theorem supplyBuffer_a (s : State) (bytes : List Byte) : (s.supplyBuffer bytes).a = s.a := rfl
@[simp] theorem supplyBuffer_x (s : State) (bytes : List Byte) : (s.supplyBuffer bytes).x = s.x := rfl
@[simp] theorem supplyBuffer_p (s : State) (bytes : List Byte) : (s.supplyBuffer bytes).p = s.p := rfl
@[simp] theorem supplyBuffer_pc (s : State) (bytes : List Byte) : (s.supplyBuffer bytes).pc = s.pc := rfl
@[simp] theorem supplyBuffer_fsm (s : State) (bytes : List Byte) : (s.supplyBuffer bytes).fsm = s.fsm := rfl
@[simp] theorem supplyBuffer_ir (s : State) (bytes : List Byte) : (s.supplyBuffer bytes).ir = s.ir := rfl
@[simp] theorem supplyBuffer_faultKind (s : State) (bytes : List Byte) : (s.supplyBuffer bytes).faultKind = s.faultKind := rfl
@[simp] theorem supplyBuffer_faultInfo (s : State) (bytes : List Byte) : (s.supplyBuffer bytes).faultInfo = s.faultInfo := rfl
@[simp] theorem supplyBuffer_prog (s : State) (bytes : List Byte) : (s.supplyBuffer bytes).prog = Memory.ofBytes 0 bytes := rfl
@[simp] theorem supplyBuffer_progLen (s : State) (bytes : List Byte) : (s.supplyBuffer bytes).progLen = bytes.length := rfl
@[simp] theorem supplyBuffer_inputs (s : State) (bytes : List Byte) : (s.supplyBuffer bytes).inputs = s.inputs := rfl

@[simp] theorem withInputs_a (s : State) (es : List HostInput) : (s.withInputs es).a = s.a := rfl
@[simp] theorem withInputs_x (s : State) (es : List HostInput) : (s.withInputs es).x = s.x := rfl
@[simp] theorem withInputs_p (s : State) (es : List HostInput) : (s.withInputs es).p = s.p := rfl
@[simp] theorem withInputs_pc (s : State) (es : List HostInput) : (s.withInputs es).pc = s.pc := rfl
@[simp] theorem withInputs_fsm (s : State) (es : List HostInput) : (s.withInputs es).fsm = s.fsm := rfl
@[simp] theorem withInputs_ir (s : State) (es : List HostInput) : (s.withInputs es).ir = s.ir := rfl
@[simp] theorem withInputs_faultKind (s : State) (es : List HostInput) : (s.withInputs es).faultKind = s.faultKind := rfl
@[simp] theorem withInputs_faultInfo (s : State) (es : List HostInput) : (s.withInputs es).faultInfo = s.faultInfo := rfl
@[simp] theorem withInputs_prog (s : State) (es : List HostInput) : (s.withInputs es).prog = s.prog := rfl
@[simp] theorem withInputs_progLen (s : State) (es : List HostInput) : (s.withInputs es).progLen = s.progLen := rfl
@[simp] theorem withInputs_inputs (s : State) (es : List HostInput) : (s.withInputs es).inputs = es := rfl

end Sys2Proof.Machine
end

