-- ==== Sys2Proof/Laws/Ops.lean ====
section
/-! SUPPORT. One lemma per shared operation that says everything it does, so that no proof unfolds it. -/

namespace Sys2Proof.Machine

theorem raise_eq (s : State) (k : FaultKind) (info : Word) :
    s.raise k info = { s with faultKind := k, faultInfo := info, fsm := .faulted } := rfl

theorem raiseOutOfBounds_eq (s : State) (i : Word) :
    s.raiseOutOfBounds i = { s with faultKind := .outOfBounds, faultInfo := i, fsm := .faulted } := rfl

theorem raiseUnimplementedOpcode_eq (s : State) (op : Byte) :
    s.raiseUnimplementedOpcode op =
      { s with faultKind := .unimplementedOpcode, faultInfo := op.setWidth 16, fsm := .faulted } := rfl

theorem startAction_eq (s : State) :
    s.startAction = { s with pc := 0x0000#16, fsm := .fetching, faultKind := .none, faultInfo := 0x0000#16 } := rfl

/-- The Fetching transition in bounds (R76). -/
theorem fetchOpcode_of_lt (s : State) (h : s.pc.toNat < s.progLen) :
    s.fetchOpcode = { s with ir := s.prog.read s.pc.toNat, pc := s.pc + 1#16, fsm := .dispatching } := by
  simp only [State.fetchOpcode, memRead_of_lt s s.pc h]; rfl

/-- The Fetching transition out of bounds (R77). -/
theorem fetchOpcode_of_ge (s : State) (h : ¬ s.pc.toNat < s.progLen) :
    s.fetchOpcode = { s with faultKind := .outOfBounds, faultInfo := s.pc, fsm := .faulted } := by
  simp only [State.fetchOpcode, memRead_of_ge s s.pc h]; rfl

theorem dispatchBytes_of_lt (s : State) (h : s.pc.toNat < s.progLen) :
    s.dispatchBytes = [s.ir, s.prog.read s.pc.toNat] := by
  simp [State.dispatchBytes, State.operandStream, memRead_of_lt s s.pc h]

theorem dispatchBytes_of_ge (s : State) (h : ¬ s.pc.toNat < s.progLen) : s.dispatchBytes = [s.ir] := by
  simp [State.dispatchBytes, State.operandStream, memRead_of_ge s s.pc h]

theorem consumeOperand_of_lt (s : State) (h : s.pc.toNat < s.progLen) :
    s.consumeOperand = some { s with pc := s.pc + 1#16 } := by
  simp only [State.consumeOperand, State.inBounds, h, decide_true, if_true]; rfl

theorem consumeOperand_of_ge (s : State) (h : ¬ s.pc.toNat < s.progLen) : s.consumeOperand = none := by
  simp [State.consumeOperand, State.inBounds, h]

/-- The opcode map read backwards: the row selected has this opcode (R60). -/
theorem decodeOpcode_eq_some {op : Byte} {o : Opcode} : decodeOpcode op = some o ↔ op = opcodeByte o := by
  constructor
  · intro h
    simp only [decodeOpcode] at h
    split at h
    · cases h; assumption
    · split at h
      · cases h; assumption
      · split at h
        · cases h; assumption
        · split at h
          · cases h; assumption
          · cases h
  · rintro rfl; cases o <;> rfl

/-- No row is selected exactly by the other values (R62). -/
theorem decodeOpcode_eq_none {op : Byte} :
    decodeOpcode op = none ↔ op ≠ 0x00#8 ∧ op ≠ 0xA9#8 ∧ op ≠ 0xAA#8 ∧ op ≠ 0xE8#8 := by
  simp only [decodeOpcode]
  constructor
  · intro h
    refine ⟨?_, ?_, ?_, ?_⟩ <;> rintro rfl <;> simp at h
  · rintro ⟨h0, h1, h2, h3⟩; simp [h0, h1, h2, h3]

/-- The Dispatching transition always has an opcode byte to decode. -/
theorem decode_dispatchBytes_ne_opcodeMissing (s : State) : decode s.dispatchBytes ≠ .opcodeMissing := by
  simp only [State.dispatchBytes, decode]
  cases decodeOpcode s.ir with
  | none => simp
  | some o => cases o <;> simp; cases s.operandStream <;> simp

end Sys2Proof.Machine
end

