-- ==== Sys2Proof/Laws/Exec.lean ====
section
/-! SUPPORT. One lemma per meaning: the next state it answers, with the flag policy named and not unfolded. -/

namespace Sys2Proof.Machine

theorem execBrk_eq (s : State) : execBrk s = .next { s with fsm := .halted } := rfl

theorem execLdaImm_of_lt (v : Byte) (s : State) (h : s.pc.toNat < s.progLen) :
    execLdaImm v s =
      .next { s with a := v, p := zeroNegative s.p v, pc := s.pc + 1#16, fsm := .fetching } := by
  simp only [execLdaImm, consumeOperand_of_lt s h]; rfl

theorem execLdaImm_of_ge (v : Byte) (s : State) (h : ¬ s.pc.toNat < s.progLen) :
    execLdaImm v s = .next { s with faultKind := .outOfBounds, faultInfo := s.pc, fsm := .faulted } := by
  simp only [execLdaImm, consumeOperand_of_ge s h]; rfl

theorem execTax_eq (s : State) :
    execTax s = .next { s with x := s.a, p := zeroNegative s.p s.a, fsm := .fetching } := rfl

theorem execInx_eq (s : State) :
    execInx s = .next { s with x := aluInc s.x, p := zeroNegative s.p (aluInc s.x), fsm := .fetching } := rfl

/-- The increment is the byte addition (R72). -/
theorem aluInc_eq (x : Byte) : aluInc x = x + 1#8 := by
  apply BitVec.eq_of_toNat_eq
  simp [aluInc, BitVec.toNat_add]

end Sys2Proof.Machine
end

