-- ==== Sys2Proof/Laws/Flags.lean ====
section
/-! SUPPORT. The law of a status bit's write (R10): the bit written reads back, the other seven are kept. -/

namespace Sys2Proof.Machine

/-- Every flag has its place in the byte (R23). -/
theorem flagBit_lt (f : Flag) : flagBit f < 8 := by cases f <;> decide

theorem flagOf_setFlag (p : Byte) (f g : Flag) (b : Bool) :
    flagOf (setFlag p f b) g = if g = f then b else flagOf p g := by
  revert p b
  cases f <;> cases g <;> decide

/-- Two status bytes with the same eight flags are equal. -/
theorem eq_of_flagOf {p q : Byte} (h : ∀ f : Flag, flagOf p f = flagOf q f) : p = q := by
  apply BitVec.eq_of_getLsbD_eq
  intro i hi
  have : i = 0 ∨ i = 1 ∨ i = 2 ∨ i = 3 ∨ i = 4 ∨ i = 5 ∨ i = 6 ∨ i = 7 := by omega
  rcases this with rfl | rfl | rfl | rfl | rfl | rfl | rfl | rfl
  · exact h .carry
  · exact h .zero
  · exact h .interruptDisable
  · exact h .decimalMode
  · exact h .breakBit
  · exact h .unused
  · exact h .overflow
  · exact h .negative

/-- Every flag after the policy (R67): Z and N from the result, the other six as they were. -/
theorem flagOf_zeroNegative (p r : Byte) (f : Flag) :
    flagOf (zeroNegative p r) f =
      if f = .negative then r.getLsbD 7 else if f = .zero then r == 0x00#8 else flagOf p f := by
  simp only [zeroNegative, flagOf_setFlag]

end Sys2Proof.Machine
end

