-- ==== Sys2Proof/Laws/PerInstr.lean ====
section
/-! SUPPORT. The per-instruction family: the format of each instruction's encoding (spec/30_encoding.md R56 to R61). -/

namespace Sys2Proof.Laws.Format

/-- The encoding begins with the opcode byte of the instruction's row, which the decoder selects, and is as long as
the row says, which is one or two bytes. -/
def Statement (i : Instr) : Prop :=
  (encode i).head? = some (opcodeByte (opcodeOf i)) ∧
  decodeOpcode (opcodeByte (opcodeOf i)) = some (opcodeOf i) ∧
  (encode i).length = opcodeLength (opcodeOf i) ∧
  1 ≤ (encode i).length ∧ (encode i).length ≤ 2

theorem brk : Statement .brk := by unfold Statement; decide

theorem ldaImm (imm8 : Byte) : Statement (.ldaImm imm8) :=
  ⟨rfl, rfl, rfl, by simp [encode, operandBytes], by simp [encode, operandBytes]⟩

theorem tax : Statement .tax := by unfold Statement; decide

theorem inx : Statement .inx := by unfold Statement; decide

end Sys2Proof.Laws.Format
end

