-- ==== Sys2Proof/Laws/Transition.lean ====
section
/-! SUPPORT. What one step can do, said once: the Dispatching transition by its opcode, the step by the host's input,
and the inversion lemmas from which an invariant is proved. -/

namespace Sys2Proof.Machine

/-! ### The Dispatching transition, one lemma per branch of R78 -/

theorem dispatch_brk (s : State) (h : s.ir = 0x00#8) :
    s.dispatchTransition = .next { s with fsm := .halted } := by
  simp [State.dispatchTransition, State.dispatchBytes, decode, h, decodeOpcode, exec, execBrk_eq]

theorem dispatch_tax (s : State) (h : s.ir = 0xAA#8) :
    s.dispatchTransition = .next { s with x := s.a, p := zeroNegative s.p s.a, fsm := .fetching } := by
  simp [State.dispatchTransition, State.dispatchBytes, decode, h, decodeOpcode, exec, execTax_eq]

theorem dispatch_inx (s : State) (h : s.ir = 0xE8#8) :
    s.dispatchTransition =
      .next { s with x := aluInc s.x, p := zeroNegative s.p (aluInc s.x), fsm := .fetching } := by
  simp [State.dispatchTransition, State.dispatchBytes, decode, h, decodeOpcode, exec, execInx_eq]

theorem dispatch_lda_of_lt (s : State) (h : s.ir = 0xA9#8) (hb : s.pc.toNat < s.progLen) :
    s.dispatchTransition =
      .next { s with
        a := s.prog.read s.pc.toNat
        p := zeroNegative s.p (s.prog.read s.pc.toNat)
        pc := s.pc + 1#16
        fsm := .fetching } := by
  simp [State.dispatchTransition, dispatchBytes_of_lt s hb, decode, h, decodeOpcode, exec, execLdaImm_of_lt _ s hb]

theorem dispatch_lda_of_ge (s : State) (h : s.ir = 0xA9#8) (hb : ¬ s.pc.toNat < s.progLen) :
    s.dispatchTransition =
      .next { s with faultKind := .outOfBounds, faultInfo := s.pc, fsm := .faulted } := by
  simp [State.dispatchTransition, dispatchBytes_of_ge s hb, decode, h, decodeOpcode, raiseOutOfBounds_eq]

theorem dispatch_unimplemented (s : State) (h : decodeOpcode s.ir = none) :
    s.dispatchTransition =
      .next { s with faultKind := .unimplementedOpcode, faultInfo := s.ir.setWidth 16, fsm := .faulted } := by
  simp [State.dispatchTransition, State.dispatchBytes, decode, h, raiseUnimplementedOpcode_eq]

/-- Every way a transition of the FSM can go (R76 to R82), with the guard of each. -/
inductive TransitionCase (s : State) : State → Prop where
  | fetch (hf : s.fsm = .fetching) (hb : s.pc.toNat < s.progLen) :
      TransitionCase s { s with ir := s.prog.read s.pc.toNat, pc := s.pc + 1#16, fsm := .dispatching }
  | fetchFault (hf : s.fsm = .fetching) (hb : ¬ s.pc.toNat < s.progLen) :
      TransitionCase s { s with faultKind := .outOfBounds, faultInfo := s.pc, fsm := .faulted }
  | brk (hf : s.fsm = .dispatching) (ho : s.ir = 0x00#8) :
      TransitionCase s { s with fsm := .halted }
  | lda (hf : s.fsm = .dispatching) (ho : s.ir = 0xA9#8) (hb : s.pc.toNat < s.progLen) :
      TransitionCase s { s with
        a := s.prog.read s.pc.toNat
        p := zeroNegative s.p (s.prog.read s.pc.toNat)
        pc := s.pc + 1#16
        fsm := .fetching }
  | ldaFault (hf : s.fsm = .dispatching) (ho : s.ir = 0xA9#8) (hb : ¬ s.pc.toNat < s.progLen) :
      TransitionCase s { s with faultKind := .outOfBounds, faultInfo := s.pc, fsm := .faulted }
  | tax (hf : s.fsm = .dispatching) (ho : s.ir = 0xAA#8) :
      TransitionCase s { s with x := s.a, p := zeroNegative s.p s.a, fsm := .fetching }
  | inx (hf : s.fsm = .dispatching) (ho : s.ir = 0xE8#8) :
      TransitionCase s { s with x := aluInc s.x, p := zeroNegative s.p (aluInc s.x), fsm := .fetching }
  | unimplemented (hf : s.fsm = .dispatching) (ho : decodeOpcode s.ir = none) :
      TransitionCase s
        { s with faultKind := .unimplementedOpcode, faultInfo := s.ir.setWidth 16, fsm := .faulted }
  | halted (hf : s.fsm = .halted) : TransitionCase s s
  | faulted (hf : s.fsm = .faulted) : TransitionCase s s

/-- The FSM's transition always answers a next state, by one of the cases. -/
theorem fsmTransition_cases (s : State) : ∃ t, s.fsmTransition = .next t ∧ TransitionCase s t := by
  cases hf : s.fsm with
  | fetching =>
    by_cases hb : s.pc.toNat < s.progLen
    · exact ⟨_, by simp only [State.fsmTransition, hf, fetchOpcode_of_lt s hb], .fetch hf hb⟩
    · exact ⟨_, by simp only [State.fsmTransition, hf, fetchOpcode_of_ge s hb], .fetchFault hf hb⟩
  | halted => exact ⟨s, by simp only [State.fsmTransition, hf], .halted hf⟩
  | faulted => exact ⟨s, by simp only [State.fsmTransition, hf], .faulted hf⟩
  | dispatching =>
    have hd : s.fsmTransition = s.dispatchTransition := by simp only [State.fsmTransition, hf]
    rw [hd]
    cases ho : decodeOpcode s.ir with
    | none => exact ⟨_, dispatch_unimplemented s ho, .unimplemented hf ho⟩
    | some o =>
      have hi := decodeOpcode_eq_some.1 ho
      cases o with
      | brk => exact ⟨_, dispatch_brk s hi, .brk hf hi⟩
      | tax => exact ⟨_, dispatch_tax s hi, .tax hf hi⟩
      | inx => exact ⟨_, dispatch_inx s hi, .inx hf hi⟩
      | ldaImm =>
        by_cases hb : s.pc.toNat < s.progLen
        · exact ⟨_, dispatch_lda_of_lt s hi hb, .lda hf hi hb⟩
        · exact ⟨_, dispatch_lda_of_ge s hi hb, .ldaFault hf hi hb⟩

/-- Every way an instruction's meaning can go. -/
theorem exec_cases {i : Instr} {s t : State} (h : exec i s = .next t) :
    (i = .brk ∧ t = { s with fsm := .halted }) ∨
    (∃ v, i = .ldaImm v ∧ s.pc.toNat < s.progLen ∧
      t = { s with a := v, p := zeroNegative s.p v, pc := s.pc + 1#16, fsm := .fetching }) ∨
    (∃ v, i = .ldaImm v ∧ ¬ s.pc.toNat < s.progLen ∧
      t = { s with faultKind := .outOfBounds, faultInfo := s.pc, fsm := .faulted }) ∨
    (i = .tax ∧ t = { s with x := s.a, p := zeroNegative s.p s.a, fsm := .fetching }) ∨
    (i = .inx ∧ t = { s with x := aluInc s.x, p := zeroNegative s.p (aluInc s.x), fsm := .fetching }) := by
  cases i with
  | brk => cases h; exact .inl ⟨rfl, rfl⟩
  | tax => cases h; exact .inr (.inr (.inr (.inl ⟨rfl, rfl⟩)))
  | inx => cases h; exact .inr (.inr (.inr (.inr ⟨rfl, rfl⟩)))
  | ldaImm v =>
    have h' : execLdaImm v s = .next t := h
    by_cases hb : s.pc.toNat < s.progLen
    · rw [execLdaImm_of_lt v s hb] at h'; cases h'; exact .inr (.inl ⟨v, rfl, hb, rfl⟩)
    · rw [execLdaImm_of_ge v s hb] at h'; cases h'; exact .inr (.inr (.inl ⟨v, rfl, hb, rfl⟩))

/-! ### One clock edge -/

/-- Taking the input of the coming edge changes `inputs` only. -/
theorem takeInput_eq (s : State) : s.takeInput = { s with inputs := s.inputs.tail } := rfl

/-- A host that drives nothing is quiet. -/
theorem quiet_of_no_inputs (s : State) (h : s.inputs = []) : Quiet s := by
  show s.inputs.headD quietInput = quietInput
  rw [h]; rfl

theorem nextInput_of_cons (s : State) (e : HostInput) (es : List HostInput) (h : s.inputs = e :: es) :
    s.nextInput = e := by
  show s.inputs.headD quietInput = e
  rw [h]; rfl

/-- The buffer and the inputs with which the edge acts: the host's input taken, and its buffer in place. -/
def edgeState (s : State) : State :=
  match s.nextInput.buffer with
  | none => s.takeInput
  | some bytes => s.takeInput.supplyBuffer bytes

/-- Whether the host's supply at this edge, if any, is one the block takes (R43, R124, R127). -/
def supplyAccepted (s : State) : Prop :=
  ∀ bytes, s.nextInput.buffer = some bytes →
    bytes.length ≤ 65536 ∧ (s.nextInput.rst = true ∨ s.fsm.terminal = true)

/-- A supplied buffer changes `prog` and `progLen` only. -/
@[simp] theorem edgeState_a (s : State) : (edgeState s).a = s.a := by unfold edgeState; split <;> rfl
@[simp] theorem edgeState_x (s : State) : (edgeState s).x = s.x := by unfold edgeState; split <;> rfl
@[simp] theorem edgeState_p (s : State) : (edgeState s).p = s.p := by unfold edgeState; split <;> rfl
@[simp] theorem edgeState_pc (s : State) : (edgeState s).pc = s.pc := by unfold edgeState; split <;> rfl
@[simp] theorem edgeState_fsm (s : State) : (edgeState s).fsm = s.fsm := by unfold edgeState; split <;> rfl
@[simp] theorem edgeState_ir (s : State) : (edgeState s).ir = s.ir := by unfold edgeState; split <;> rfl
@[simp] theorem edgeState_faultKind (s : State) : (edgeState s).faultKind = s.faultKind := by
  unfold edgeState; split <;> rfl
@[simp] theorem edgeState_faultInfo (s : State) : (edgeState s).faultInfo = s.faultInfo := by
  unfold edgeState; split <;> rfl
@[simp] theorem edgeState_inputs (s : State) : (edgeState s).inputs = s.inputs.tail := by
  unfold edgeState; split <;> rfl

theorem edgeState_of_none (s : State) (h : s.nextInput.buffer = none) : edgeState s = s.takeInput := by
  simp only [edgeState, h]

theorem hostSupply_of_accepted (s : State) (h : supplyAccepted s) :
    hostSupply s.nextInput s.takeInput = .next (edgeState s) := by
  unfold hostSupply edgeState
  cases hb : s.nextInput.buffer with
  | none => rfl
  | some bytes =>
    obtain ⟨hl, hr⟩ := h bytes hb
    have hw : imageWf bytes = true := by simp [imageWf, Config.maxProgLen, hl]
    have hr' : (s.nextInput.rst || s.takeInput.fsm.terminal) = true := by
      simpa [State.takeInput] using hr
    simp only [hw, hr', if_true]

/-- A step with an accepted supply (or none) is the edge's action on the state with the buffer in place. -/
theorem step_of_accepted (s : State) (h : supplyAccepted s) :
    step s = hostOrFsm s.nextInput (edgeState s) := by
  simp only [step, clockEdge, hostSupply_of_accepted s h]

theorem step_of_no_buffer (s : State) (h : s.nextInput.buffer = none) :
    step s = hostOrFsm s.nextInput s.takeInput := by
  rw [step_of_accepted s (fun b hb => by simp [h] at hb), edgeState_of_none s h]

/-- A quiet step is the FSM's transition. -/
theorem step_of_quiet (s : State) (h : Quiet s) : step s = s.takeInput.fsmTransition := by
  rw [step_of_no_buffer s (by rw [h]; rfl), h]; rfl

/-- With no inputs, taking the input of the edge changes nothing. -/
theorem takeInput_of_no_inputs (s : State) (h : s.inputs = []) : s.takeInput = s := by
  obtain ⟨⟩ := s; subst h; rfl

/-- With no inputs, a step is a transition of the FSM, by one of its cases. -/
theorem step_of_no_inputs (s : State) (h : s.inputs = []) : ∃ t, step s = .next t ∧ TransitionCase s t := by
  obtain ⟨t, ht, hc⟩ := fsmTransition_cases s
  exact ⟨t, by rw [step_of_quiet s (quiet_of_no_inputs s h), takeInput_of_no_inputs s h, ht], hc⟩

/-- A supply that is not accepted ends the step: refused when too long, a fault otherwise. -/
theorem step_of_not_accepted (s : State) (h : ¬ supplyAccepted s) :
    step s = .refused .progLenOutOfRange ∨ step s = .fault .bufferChangedDuringRun := by
  cases hb : s.nextInput.buffer with
  | none => exact absurd (fun b h' => by simp [hb] at h') h
  | some bytes =>
    by_cases hl : bytes.length ≤ 65536
    · right
      have hr : (s.nextInput.rst || s.takeInput.fsm.terminal) = false := by
        by_contra hc
        refine h fun b h' => ?_
        rw [hb] at h'; cases h'
        refine ⟨hl, ?_⟩
        simpa only [Bool.not_eq_false, Bool.or_eq_true, State.takeInput, withInputs_fsm] using hc
      have hw : imageWf bytes = true := by simp [imageWf, Config.maxProgLen, hl]
      simp [step, clockEdge, hostSupply, hb, hw, hr]
    · left
      have hw : imageWf bytes = false := decide_eq_false hl
      simp [step, clockEdge, hostSupply, hb, hw]

/-- Every way a step can answer a next state: the reset action, the start action, or the FSM's transition, each on
the state with the host's input taken and its buffer in place. -/
inductive StepCase (s : State) : State → Prop where
  | reset (hr : s.nextInput.rst = true) : StepCase s (edgeState s).resetAction
  | start (hr : s.nextInput.rst = false) (hs : s.nextInput.start = true) (ht : s.fsm.terminal = true) :
      StepCase s (edgeState s).startAction
  | transition (hr : s.nextInput.rst = false) (hs : s.nextInput.start = false ∨ s.fsm.terminal = false) (t : State)
      (ht : TransitionCase (edgeState s) t) : StepCase s t

theorem step_cases {s t : State} (h : step s = .next t) : supplyAccepted s ∧ StepCase s t := by
  by_cases ha : supplyAccepted s
  · refine ⟨ha, ?_⟩
    rw [step_of_accepted s ha] at h
    unfold hostOrFsm at h
    split at h
    · cases h; exact .reset ‹_›
    · have hr : s.nextInput.rst = false := by simpa using ‹¬ s.nextInput.rst = true›
      split at h
      · next hc =>
        cases h
        simp only [edgeState_fsm, Bool.and_eq_true] at hc
        exact .start hr hc.1 hc.2
      · next hc =>
        obtain ⟨u, hu, hcase⟩ := fsmTransition_cases (edgeState s)
        rw [hu] at h
        cases h
        simp only [edgeState_fsm, Bool.and_eq_true, not_and, Bool.not_eq_true] at hc
        refine .transition hr ?_ _ hcase
        cases hs : s.nextInput.start with
        | false => exact .inl rfl
        | true => exact .inr (hc hs)
  · rcases step_of_not_accepted s ha with h' | h' <;> rw [h'] at h <;> cases h

/-- A step with an accepted supply (or none) answers a next state (R84). -/
theorem step_next_of_accepted (s : State) (h : supplyAccepted s) : ∃ t, step s = .next t := by
  rw [step_of_accepted s h]
  unfold hostOrFsm
  split
  · exact ⟨_, rfl⟩
  · split
    · exact ⟨_, rfl⟩
    · obtain ⟨t, ht, -⟩ := fsmTransition_cases (edgeState s)
      exact ⟨t, ht⟩

/-! ### Runs -/

@[simp] theorem runSteps_zero (s : State) : runSteps 0 s = .next s := rfl

/-- A run of `k + 1` steps begins with one step. -/
theorem runSteps_succ (k : Nat) (s : State) :
    runSteps (k + 1) s =
      (match step s with
      | .next t => runSteps k t
      | .fault r => .fault r
      | .refused r => .refused r) := rfl

theorem runSteps_succ_of_next {s t : State} (k : Nat) (h : step s = .next t) :
    runSteps (k + 1) s = runSteps k t := by
  rw [runSteps_succ, h]

/-- A run of `k + 1` steps is a step and a run of `k`. -/
theorem runSteps_succ_next {s t : State} {k : Nat} (h : runSteps (k + 1) s = .next t) :
    ∃ u, step s = .next u ∧ runSteps k u = .next t := by
  rw [runSteps_succ] at h
  cases hs : step s with
  | next u => rw [hs] at h; exact ⟨u, rfl, h⟩
  | fault r => rw [hs] at h; cases h
  | refused r => rw [hs] at h; cases h

/-- `runSteps` is the host's own run of the machine. -/
theorem runSteps_eq_coreRun (k : Nat) (s : State) : runSteps k s = Host.Core.run Sys2Proof.core k s := by
  induction k generalizing s with
  | zero => rfl
  | succ k ih =>
    rw [runSteps_succ]
    refine Eq.trans ?_ (Host.Core.run.eq_2 Sys2Proof.core s k).symm
    have hs : Sys2Proof.core.step s = step s := rfl
    rw [hs]
    cases step s with
    | next t => exact ih t
    | fault r => rfl
    | refused r => rfl

/-- What holds at the start of a run and is kept by every step holds at its end. -/
theorem runSteps_induction {Good : State → Prop} (keep : ∀ u v, Good u → step u = .next v → Good v) :
    ∀ {k : Nat} {s t : State}, Good s → runSteps k s = .next t → Good t
  | 0, s, t, hs, h => by cases h; exact hs
  | k + 1, s, t, hs, h => by
    obtain ⟨u, hu, ht⟩ := runSteps_succ_next h
    exact runSteps_induction keep (keep s u hs hu) ht

/-- The state `withFetchWord` answers is the one the Fetching transition leaves (log entry 8). -/
theorem withFetchWord_is_one_step (s : State) (nbits w : Nat) :
    step (s.placeWord nbits w) = .next (s.withFetchWord nbits w) := by
  rw [step_of_quiet _ rfl]; rfl

end Sys2Proof.Machine
end

