-- ==== Sys2Proof/Tests/Slice0.lean ====
section
/-! SUPPORT. The model's own tests, from the vectors of spec/95_test_vectors.md, and for every statement with
hypotheses a state and operands that meet them. -/

namespace Sys2Proof.Tests

open Sys2Proof.Machine

/-! ### Helpers -/

/-- The state a step or a meaning answers, if it answers one. -/
def answer (o : Host.Outcome State Fault Refusal) : Option State :=
  match o with
  | .next s => some s
  | .fault _ => none
  | .refused _ => none

/-- A block with these bytes as its buffer, in a given FSM state, with `PC` and `IR`. -/
def block (q : Fsm) (pc : Word) (ir : Byte) (bytes : List Byte) : State :=
  { State.reset with fsm := q, pc := pc, ir := ir, prog := Memory.ofBytes 0 bytes, progLen := bytes.length }

/-- The same with `A`, `X` and `P`. -/
def blockAxp (q : Fsm) (pc : Word) (ir : Byte) (bytes : List Byte) (a x p : Byte) : State :=
  { block q pc ir bytes with a := a, x := x, p := p }

/-- A block whose whole address space is in bounds, its unlisted bytes `0x00`, with these bytes from index `i`. -/
def fullBlock (q : Fsm) (pc : Word) (ir : Byte) (i : Nat) (bytes : List Byte) : State :=
  { State.reset with fsm := q, pc := pc, ir := ir, prog := Memory.ofBytes i bytes, progLen := 65536 }

/-! ### WellFormed -/

theorem imageWf_replicate (n : Nat) (b : Byte) : imageWf (List.replicate n b) = decide (n ≤ 65536) := by
  rw [imageWf, List.length_replicate]; rfl

theorem test_imageWf_refuses_65537_bytes : imageWf (List.replicate 65537 0x00#8) = false :=
  (imageWf_replicate 65537 0x00#8).trans (by decide)

theorem test_imageWf_takes_65536_bytes : imageWf (List.replicate 65536 0xE8#8) = true :=
  (imageWf_replicate 65536 0xE8#8).trans (by decide)

theorem test_imageWf_takes_the_empty_sequence : imageWf [] = true := by decide

theorem test_instr_wf : (Instr.ldaImm 0xFF#8).wf = true := by decide

/-! ### Decoding: words written out from R57, R58 and R60 -/

theorem test_decode_brk : decode [0b00000000#8, 0xFF#8] = .instr .brk [0xFF#8] := by decide

theorem test_decode_ldaImm : decode [0b10101001#8, 0b10000001#8, 0xAA#8] = .instr (.ldaImm 0x81#8) [0xAA#8] := by
  decide

theorem test_decode_tax : decode [0b10101010#8] = .instr .tax [] := by decide

theorem test_decode_inx : decode [0b11101000#8] = .instr .inx [] := by decide

/-- V-UNIMPL: the values beside each implemented one, and `0xFF`. -/
theorem test_decode_neighbours :
    [0x01#8, 0xA8#8, 0xAB#8, 0xE7#8, 0xE9#8, 0xFF#8].map decodeOpcode = List.replicate 6 none := by decide

/-- An `0xA9` that is the last byte has no operand (R93). -/
theorem test_decode_operand_missing : decode [0xA9#8] = .operandMissing 0xA9#8 := by decide

theorem test_decodeTableWord :
    decodeTableWord 8 0x00 = some .brk ∧ decodeTableWord 16 0x80A9 = some (.ldaImm 0x80#8) ∧
    decodeTableWord 8 0xAA = some .tax ∧ decodeTableWord 8 0xE8 = some .inx ∧
    decodeTableWord 8 0xA9 = some (.ldaImm 0x00#8) ∧ decodeTableWord 8 0xC9 = none := by decide

/-- R65: the listing of P1. -/
theorem test_assembly :
    [Instr.ldaImm 0x05#8, .tax, .inx, .brk].map assembly = ["LDA #$05", "TAX", "INX", "BRK"] := by decide

/-! ### Flags: V-FLAG -/

theorem test_flag_policy :
    zeroNegative 0xFF#8 0x00#8 = 0x7F#8 ∧ zeroNegative 0xFF#8 0x80#8 = 0xFD#8 ∧ zeroNegative 0xFF#8 0x01#8 = 0x7D#8 ∧
    zeroNegative 0x82#8 0x05#8 = 0x00#8 ∧ zeroNegative 0x41#8 0xFF#8 = 0xC1#8 ∧ zeroNegative 0x80#8 0x00#8 = 0x02#8 ∧
    zeroNegative 0x20#8 0x7F#8 = 0x20#8 := by decide

/-! ### Instructions: V-LDA, V-TAX, V-INX, V-BRK -/

theorem test_lda_negative :
    (answer (exec (.ldaImm 0x80#8) (blockAxp .dispatching 0x0001#16 0xA9#8 [0xA9#8, 0x80#8] 0x33#8 0x44#8 0x41#8))).map
      State.outputs = some ⟨0x80#8, 0x44#8, 0xC1#8, 0x0002#16, 0b00#2, 0b00#2, 0x0000#16⟩ := by decide

/-- The operand out of bounds: `L = 4`, `PC = 0x0004`. -/
theorem test_lda_operand_out_of_bounds :
    (answer (step (blockAxp .dispatching 0x0004#16 0xA9#8 [0xE8#8, 0xE8#8, 0xE8#8, 0xA9#8] 0x33#8 0x00#8 0x00#8))).map
      State.outputs = some ⟨0x33#8, 0x00#8, 0x00#8, 0x0004#16, 0b11#2, 0b01#2, 0x0004#16⟩ := by decide

theorem test_tax_negative_other_bits_kept :
    (answer (exec .tax (blockAxp .dispatching 0x0001#16 0xAA#8 [] 0xFF#8 0x00#8 0x7D#8))).map State.outputs =
      some ⟨0xFF#8, 0xFF#8, 0xFD#8, 0x0001#16, 0b00#2, 0b00#2, 0x0000#16⟩ := by decide

theorem test_tax_zero :
    (answer (exec .tax (blockAxp .dispatching 0x0001#16 0xAA#8 [] 0x00#8 0x55#8 0x80#8))).map State.outputs =
      some ⟨0x00#8, 0x00#8, 0x02#8, 0x0001#16, 0b00#2, 0b00#2, 0x0000#16⟩ := by decide

theorem test_inx_wraps :
    (answer (exec .inx (blockAxp .dispatching 0x0001#16 0xE8#8 [] 0x11#8 0xFF#8 0x7D#8))).map State.outputs =
      some ⟨0x11#8, 0x00#8, 0x7F#8, 0x0001#16, 0b00#2, 0b00#2, 0x0000#16⟩ := by decide

theorem test_inx_sign :
    (answer (exec .inx (blockAxp .dispatching 0x0001#16 0xE8#8 [] 0x11#8 0x7F#8 0x00#8))).map State.outputs =
      some ⟨0x11#8, 0x80#8, 0x80#8, 0x0001#16, 0b00#2, 0b00#2, 0x0000#16⟩ := by decide

theorem test_brk_halts :
    (answer (exec .brk (blockAxp .dispatching 0x0001#16 0x00#8 [0x00#8] 0x12#8 0x34#8 0x82#8))).map State.outputs =
      some ⟨0x12#8, 0x34#8, 0x82#8, 0x0001#16, 0b10#2, 0b00#2, 0x0000#16⟩ := by decide

/-! ### Fetching and faults: V-FETCH, V-UNIMPL -/

/-- `PC = 0xFFFF` with `PROG_LEN = 65536`: the byte is read and `PC` wraps. -/
theorem test_fetch_wraps :
    (answer (step (fullBlock .fetching 0xFFFF#16 0x00#8 0xFFFF [0xE8#8]))).map (fun t => (t.ir, t.pc, t.fsm)) =
      some (0xE8#8, 0x0000#16, .dispatching) := by decide

/-- The last in-bounds index, and the index equal to the length (C2). -/
theorem test_fetch_bound :
    (answer (step (block .fetching 0x0004#16 0xE8#8 [0xA9#8, 0x05#8, 0xAA#8, 0xE8#8, 0x00#8]))).map
      (fun t => (t.ir, t.pc, t.fsm)) = some (0x00#8, 0x0005#16, .dispatching) ∧
    (answer (step (block .fetching 0x0005#16 0xE8#8 [0xA9#8, 0x05#8, 0xAA#8, 0xE8#8, 0x00#8]))).map
      (fun t => (t.ir, t.outputs)) =
        some (0xE8#8, ⟨0x00#8, 0x00#8, 0x00#8, 0x0005#16, 0b11#2, 0b01#2, 0x0005#16⟩) := by decide

theorem test_unimplemented :
    (answer (step (blockAxp .dispatching 0x0010#16 0xC9#8 [] 0x01#8 0x02#8 0x80#8))).map State.outputs =
      some ⟨0x01#8, 0x02#8, 0x80#8, 0x0010#16, 0b11#2, 0b10#2, 0x00C9#16⟩ := by decide

/-! ### The host: V-HOST -/

theorem test_start_after_fault :
    (answer (step { blockAxp .faulted 0x0003#16 0xAA#8 [0x00#8] 0x01#8 0x02#8 0x80#8 with
      faultKind := .outOfBounds, faultInfo := 0x0003#16, inputs := [⟨false, true, none⟩] })).map State.outputs =
      some ⟨0x01#8, 0x02#8, 0x80#8, 0x0000#16, 0b00#2, 0b00#2, 0x0000#16⟩ := by decide

theorem test_reset_wins_over_start :
    (answer (step { blockAxp .halted 0x0005#16 0x00#8 [0x00#8] 0x05#8 0x06#8 0x02#8 with
      inputs := [⟨true, true, none⟩] })).map State.outputs =
      some ⟨0x00#8, 0x00#8, 0x00#8, 0x0000#16, 0b00#2, 0b00#2, 0x0000#16⟩ := by decide

/-- R124: a program supplied under `rst` is the one the next edge fetches from. -/
theorem test_supply_under_reset :
    (answer (step { block .dispatching 0x0009#16 0xE8#8 [] with
      inputs := [⟨true, false, some [0xE8#8, 0x00#8]⟩] })).map
        (fun t => (t.progLen, t.prog, t.pc, t.fsm, t.progAddr)) =
      some (2, [(0, 0xE8#8)], 0x0000#16, .fetching, some 0x0000#16) := by decide

/-- R119, R124: a program supplied with a start is in place for the new run, which keeps `A` and `X`. -/
theorem test_supply_with_start :
    (answer (step { blockAxp .halted 0x0002#16 0x00#8 [0xE8#8, 0x00#8] 0x05#8 0x06#8 0x00#8 with
      inputs := [⟨false, true, some [0xAA#8]⟩] })).map
        (fun t => (t.outputs, t.progLen, t.prog)) =
      some (⟨0x05#8, 0x06#8, 0x00#8, 0x0000#16, 0b00#2, 0b00#2, 0x0000#16⟩, 1, [(0, 0xAA#8)]) := by decide

/-- The host's hook: the word of `LDA #$80`, as the first instruction after reset, is what the next step runs. -/
theorem test_withFetchWord :
    (answer (step (State.reset.withFetchWord 16 0x80A9))).map State.outputs =
      some ⟨0x80#8, 0x00#8, 0x80#8, 0x0002#16, 0b00#2, 0b00#2, 0x0000#16⟩ := by decide

/-! ### Witnesses: states and operands that meet the hypotheses of each statement -/

theorem witness_ResetActionSetsEveryElement :
    ∃ (s : State) (st : Bool) (es : List HostInput), s.inputs = ⟨true, st, none⟩ :: es :=
  ⟨{ block .dispatching 0x0001#16 0xE8#8 [0xE8#8] with inputs := [⟨true, true, none⟩] }, true, [], by decide⟩

theorem witness_StartActionBeginsNewRun :
    ∃ (s : State) (es : List HostInput),
      s.inputs = ⟨false, true, none⟩ :: es ∧ (s.fsm = .halted ∨ s.fsm = .faulted) :=
  ⟨{ block .halted 0x0001#16 0x00#8 [0x00#8] with inputs := [⟨false, true, none⟩] }, [], by decide⟩

theorem witness_StartIgnoredWhileRunningAndResetWins :
    Running (block .fetching 0x0000#16 0x00#8 [0xE8#8]) ∧ Running (block .dispatching 0x0001#16 0xE8#8 [0xE8#8]) := by
  decide

theorem witness_TerminalStatesChangeNothing :
    (∃ s : State, Quiet s ∧ (s.fsm = .halted ∨ s.fsm = .faulted)) ∧
    (∃ s t : State, (s.fsm = .halted ∨ s.fsm = .faulted) ∧ step s = .next t ∧ t.fsm ≠ s.fsm) :=
  ⟨⟨block .faulted 0x0000#16 0x00#8 [], by decide⟩,
    ⟨{ block .halted 0x0001#16 0x00#8 [0x00#8] with inputs := [⟨false, true, none⟩] },
      block .fetching 0x0000#16 0x00#8 [0x00#8], by decide, rfl, by decide⟩⟩

theorem witness_OversizedBufferRefused :
    ∃ (s : State) (r st : Bool) (bytes : List Byte) (es : List HostInput),
      s.inputs = ⟨r, st, some bytes⟩ :: es ∧ 65536 < bytes.length :=
  ⟨{ State.reset with inputs := [⟨true, false, some (List.replicate 65537 0x00#8)⟩] }, true, false,
    List.replicate 65537 0x00#8, [], rfl, by rw [List.length_replicate]; decide⟩

theorem witness_BufferChangeDuringRunStops :
    ∃ (s : State) (st : Bool) (bytes : List Byte) (es : List HostInput),
      s.inputs = ⟨false, st, some bytes⟩ :: es ∧ bytes.length ≤ 65536 ∧ Running s :=
  ⟨{ State.reset with inputs := [⟨false, true, some [0x00#8]⟩] }, true, [0x00#8], [], by decide⟩

/-- Each clause, reset (from the middle of a run), start, and neither, and the lengths at both ends of the range. -/
theorem witness_SuppliedBufferIsReadBack :
    (∃ (s : State) (r st : Bool) (bytes : List Byte) (es : List HostInput),
      s.inputs = ⟨r, st, some bytes⟩ :: es ∧ bytes.length ≤ 65536 ∧
      (r = true ∨ s.fsm = .halted ∨ s.fsm = .faulted) ∧ r = true ∧ Running s ∧ bytes.length = 0) ∧
    (∃ (s : State) (r st : Bool) (bytes : List Byte) (es : List HostInput),
      s.inputs = ⟨r, st, some bytes⟩ :: es ∧ bytes.length ≤ 65536 ∧
      (r = true ∨ s.fsm = .halted ∨ s.fsm = .faulted) ∧ r = false ∧ st = true ∧ bytes.length = 65536) ∧
    (∃ (s : State) (r st : Bool) (bytes : List Byte) (es : List HostInput),
      s.inputs = ⟨r, st, some bytes⟩ :: es ∧ bytes.length ≤ 65536 ∧
      (r = true ∨ s.fsm = .halted ∨ s.fsm = .faulted) ∧ r = false ∧ st = false) :=
  ⟨⟨{ block .dispatching 0x0001#16 0xE8#8 [0xE8#8] with inputs := [⟨true, true, some []⟩] }, true, true, [], [],
      by decide⟩,
    ⟨{ State.reset with fsm := .halted, inputs := [⟨false, true, some (List.replicate 65536 0xE8#8)⟩] }, false, true,
      List.replicate 65536 0xE8#8, [], rfl, by rw [List.length_replicate], by decide, rfl, rfl,
      by rw [List.length_replicate]⟩,
    ⟨{ State.reset with fsm := .faulted, inputs := [⟨false, false, some [0xE8#8]⟩] }, false, false, [0xE8#8], [],
      by decide⟩⟩

/-- Both clauses at their meeting point: the last index of the buffer, the index equal to its length, and the wrap. -/
theorem witness_FetchingReadsAdvancesOrFaults :
    (∃ s : State, s.fsm = .fetching ∧ Quiet s ∧ s.pc.toNat < s.progLen ∧ s.pc.toNat + 1 = s.progLen) ∧
    (∃ s : State, s.fsm = .fetching ∧ Quiet s ∧ s.pc.toNat < s.progLen ∧ s.pc = 0xFFFF#16) ∧
    (∃ s : State, s.fsm = .fetching ∧ Quiet s ∧ ¬ s.pc.toNat < s.progLen ∧ s.pc.toNat = s.progLen) :=
  ⟨⟨block .fetching 0x0000#16 0x00#8 [0x00#8], by decide⟩,
    ⟨fullBlock .fetching 0xFFFF#16 0x00#8 0 [], by decide⟩,
    ⟨block .fetching 0x0001#16 0x00#8 [0x00#8], by decide⟩⟩

theorem witness_UnimplementedOpcodeFaults :
    ∃ s : State, s.fsm = .dispatching ∧ Quiet s ∧
      s.ir ≠ 0x00#8 ∧ s.ir ≠ 0xA9#8 ∧ s.ir ≠ 0xAA#8 ∧ s.ir ≠ 0xE8#8 :=
  ⟨block .dispatching 0x0001#16 0xAB#8 [0xAB#8], by decide⟩

/-- Both clauses, with LDA and its operand the last byte of the buffer. -/
theorem witness_StepsRunTheDecodedInstruction :
    (∃ (s : State) (i : Instr) (rest : List Byte), s.fsm = .fetching ∧ s.inputs = [] ∧
      decode (s.bytesAt s.pc) = .instr i rest) ∧
    (∃ (s : State) (i : Instr) (rest : List Byte), s.fsm = .dispatching ∧ Quiet s ∧
      decode (s.ir :: (if s.pc.toNat < s.progLen then [s.prog.read s.pc.toNat] else [])) = .instr i rest) :=
  ⟨⟨block .fetching 0x0000#16 0x00#8 [0xA9#8, 0x42#8], .ldaImm 0x42#8, [], by decide⟩,
    ⟨block .dispatching 0x0001#16 0xA9#8 [0xA9#8, 0x42#8], .ldaImm 0x42#8, [], by decide⟩⟩

/-- One state for each clause: the four instructions, LDA across the wrap. -/
theorem witness_CompletedInstructionAdvancesPc :
    (∃ (s : State) (rest : List Byte), s.fsm = .fetching ∧ s.inputs = [] ∧
      decode (s.bytesAt s.pc) = .instr .brk rest) ∧
    (∃ (s : State) (rest : List Byte), s.fsm = .fetching ∧ s.inputs = [] ∧
      decode (s.bytesAt s.pc) = .instr (.ldaImm 0x00#8) rest) ∧
    (∃ (s : State) (rest : List Byte), s.fsm = .fetching ∧ s.inputs = [] ∧
      decode (s.bytesAt s.pc) = .instr .tax rest) ∧
    (∃ (s : State) (rest : List Byte), s.fsm = .fetching ∧ s.inputs = [] ∧
      decode (s.bytesAt s.pc) = .instr .inx rest) :=
  ⟨⟨block .fetching 0x0000#16 0x00#8 [0x00#8], [], by decide⟩,
    ⟨fullBlock .fetching 0xFFFF#16 0x00#8 0xFFFF [0xA9#8], [], by decide⟩,
    ⟨block .fetching 0x0000#16 0x00#8 [0xAA#8], [], by decide⟩,
    ⟨block .fetching 0x0000#16 0x00#8 [0xE8#8], [], by decide⟩⟩

/-- One state for each clause. -/
theorem witness_FsmFollowsItsTransitions :
    (∃ s t : State, Quiet s ∧ step s = .next t ∧ s.fsm = .fetching) ∧
    (∃ s t : State, Quiet s ∧ step s = .next t ∧ s.fsm = .dispatching) ∧
    (∃ s t : State, Quiet s ∧ step s = .next t ∧ s.fsm = .halted) ∧
    (∃ s t : State, Quiet s ∧ step s = .next t ∧ s.fsm = .faulted) :=
  ⟨⟨block .fetching 0x0000#16 0x00#8 [0x00#8], block .dispatching 0x0001#16 0x00#8 [0x00#8], by decide, rfl,
      by decide⟩,
    ⟨block .dispatching 0x0001#16 0x00#8 [0x00#8], block .halted 0x0001#16 0x00#8 [0x00#8], by decide, rfl,
      by decide⟩,
    ⟨block .halted 0x0001#16 0x00#8 [], block .halted 0x0001#16 0x00#8 [], by decide, rfl, by decide⟩,
    ⟨block .faulted 0x0001#16 0x00#8 [], block .faulted 0x0001#16 0x00#8 [], by decide, rfl, by decide⟩⟩

theorem witness_StepAnswersNextWithoutBufferSupply : ∃ s : State, s.nextInput.buffer = none :=
  ⟨block .dispatching 0x0001#16 0xFF#8 [], by decide⟩

/-- Each premise: the Dispatching of BRK, Halted, and a BRK as the first byte of a run and at the last index. -/
theorem witness_BrkHaltsAndChangesNothingElse :
    (∃ s : State, s.fsm = .dispatching ∧ s.ir = 0x00#8) ∧ (∃ s : State, s.fsm = .halted) ∧
    (∃ s : State, s.fsm = .fetching ∧ s.inputs = [] ∧ s.pc.toNat < s.progLen ∧ s.prog.read s.pc.toNat = 0x00#8 ∧
      s.pc = 0x0000#16) ∧
    (∃ s : State, s.fsm = .fetching ∧ s.inputs = [] ∧ s.pc.toNat < s.progLen ∧ s.prog.read s.pc.toNat = 0x00#8 ∧
      s.pc = 0xFFFF#16) :=
  ⟨⟨block .dispatching 0x0001#16 0x00#8 [0x00#8], by decide⟩, ⟨block .halted 0x0001#16 0x00#8 [0x00#8], by decide⟩,
    ⟨block .fetching 0x0000#16 0x00#8 [0x00#8], by decide⟩, ⟨fullBlock .fetching 0xFFFF#16 0x00#8 0 [], by decide⟩⟩

/-- The premises of LDA's clauses: an operand that is the last byte, one at the wrap, and one at the length. -/
theorem witness_LdaImmLoadsAndSetsFlags :
    (∃ s : State, s.fsm = .dispatching ∧ s.ir = 0xA9#8 ∧ Quiet s ∧ s.pc.toNat < s.progLen ∧
      s.pc.toNat + 1 = s.progLen) ∧
    (∃ s : State, s.fsm = .dispatching ∧ s.ir = 0xA9#8 ∧ Quiet s ∧ s.pc.toNat < s.progLen ∧ s.pc = 0x0000#16) ∧
    (∃ s : State, s.progLen ≤ s.pc.toNat ∧ s.progLen = s.pc.toNat) :=
  ⟨⟨block .dispatching 0x0001#16 0xA9#8 [0xA9#8, 0x80#8], by decide⟩,
    ⟨fullBlock .dispatching 0x0000#16 0xA9#8 0 [0x42#8], by decide⟩,
    ⟨block .dispatching 0x0001#16 0xA9#8 [0xA9#8], by decide⟩⟩

theorem witness_LdaOperandOutOfBoundsFaults :
    ∃ s : State, s.fsm = .dispatching ∧ s.ir = 0xA9#8 ∧ Quiet s ∧ s.progLen ≤ s.pc.toNat :=
  ⟨block .dispatching 0x0001#16 0xA9#8 [0xA9#8], by decide⟩

theorem witness_InxIncrementsAndSetsFlags : ∃ s t : State, exec .inx s = .next t ∧ s.x = 0xFF#8 :=
  ⟨blockAxp .dispatching 0x0001#16 0xE8#8 [0xE8#8] 0x00#8 0xFF#8 0x00#8,
    blockAxp .fetching 0x0001#16 0xE8#8 [0xE8#8] 0x00#8 0x00#8 0x02#8, rfl, by decide⟩

theorem witness_FlagPolicyWritesOnlyZeroAndNegative : ∃ f : Flag, f ≠ .zero ∧ f ≠ .negative := ⟨.carry, by decide⟩

/-- Each clause of the frame: the four instructions, LDA on both sides of its bound. -/
theorem witness_InstructionsLeaveTheRestUnchanged :
    (∃ s t : State, exec .brk s = .next t) ∧
    (∃ s t : State, exec (.ldaImm 0x42#8) s = .next t ∧ s.pc.toNat < s.progLen) ∧
    (∃ s t : State, exec (.ldaImm 0x42#8) s = .next t ∧ s.progLen ≤ s.pc.toNat) ∧
    (∃ s t : State, exec .tax s = .next t) ∧
    (∃ s t : State, exec .inx s = .next t) :=
  ⟨⟨State.reset, _, rfl⟩,
    ⟨block .dispatching 0x0001#16 0xA9#8 [0xA9#8, 0x42#8], _, rfl, by decide⟩,
    ⟨block .dispatching 0x0001#16 0xA9#8 [0xA9#8], _, rfl, by decide⟩,
    ⟨State.reset, _, rfl⟩, ⟨State.reset, _, rfl⟩⟩

theorem witness_ResultsDependOnOperandAndRegistersOnly :
    ∃ (i : Instr) (s s' t t' : State), s.a = s'.a ∧ s.x = s'.x ∧ s.p = s'.p ∧
      (∀ v, i = .ldaImm v → s.pc.toNat < s.progLen ∧ s'.pc.toNat < s'.progLen) ∧
      exec i s = .next t ∧ exec i s' = .next t' :=
  ⟨.ldaImm 0x42#8, block .dispatching 0x0001#16 0xA9#8 [0xA9#8, 0x42#8],
    fullBlock .fetching 0xFFFF#16 0x00#8 0 [], _, _, by decide, by decide, by decide,
    fun _ _ => by decide, rfl, rfl⟩

theorem witness_HandlersAdvancePcOnlyForAnOperand :
    ∃ (i : Instr) (s t : State), exec i s = .next t ∧ t.pc ≠ s.pc :=
  ⟨.ldaImm 0x42#8, block .dispatching 0x0001#16 0xA9#8 [0xA9#8, 0x42#8], _, rfl, by decide⟩

/-- A step of INX with every unwritten bit set, and the same with none of them. -/
theorem witness_UnwrittenFlagsKeptAndWithoutEffect :
    ∃ (s t : State) (q : Byte),
      step s = .next t ∧ s.nextInput.rst = false ∧ q &&& 0x82#8 = s.p &&& 0x82#8 ∧ q ≠ s.p :=
  ⟨blockAxp .dispatching 0x0001#16 0xE8#8 [0xE8#8] 0x00#8 0xFF#8 0x7D#8,
    blockAxp .fetching 0x0001#16 0xE8#8 [0xE8#8] 0x00#8 0x00#8 0x7F#8, 0x00#8, rfl, by decide, by decide, by decide⟩

theorem witness_ProgramBufferIsReadOnly :
    (∃ s t : State, s.fsmTransition = .next t) ∧ (∃ s t : State, s.nextInput.buffer = none ∧ step s = .next t) :=
  ⟨⟨block .fetching 0x0000#16 0x00#8 [0xE8#8], _, rfl⟩,
    ⟨block .fetching 0x0000#16 0x00#8 [0xE8#8], block .dispatching 0x0001#16 0xE8#8 [0xE8#8], by decide, rfl⟩⟩

/-- A fetch of the last index, and another buffer that agrees there alone. -/
theorem witness_StepDependsOnAtMostOneByte :
    ∃ (s t : State) (m : Memory), s.nextInput.buffer = none ∧
      (∀ i : Word, s.fsmRead = some i → Memory.read m i.toNat = Memory.read s.prog i.toNat) ∧
      step s = .next t ∧ m ≠ s.prog := by
  refine ⟨block .fetching 0x0001#16 0x00#8 [0xA9#8, 0xE8#8], block .dispatching 0x0002#16 0xE8#8 [0xA9#8, 0xE8#8],
    Memory.ofBytes 0 [0x00#8, 0xE8#8], by decide, fun i h => ?_, rfl, by decide⟩
  have hr : (block .fetching 0x0001#16 0x00#8 [0xA9#8, 0xE8#8]).fsmRead = some 0x0001#16 := by decide
  rw [hr] at h
  cases h
  decide

/-- Each clause: reset, start, a read, and none of them. -/
theorem witness_PcMovesOnlyByReadsResetAndStart :
    (∃ s t : State, step s = .next t ∧ s.nextInput.rst = true) ∧
    (∃ s t : State, step s = .next t ∧ s.nextInput.start = true ∧ (s.fsm = .halted ∨ s.fsm = .faulted)) ∧
    (∃ s t : State, step s = .next t ∧ s.nextInput = quietInput ∧ s.fsmRead ≠ none) ∧
    (∃ s t : State, step s = .next t ∧ s.nextInput = quietInput ∧ s.fsmRead = none) :=
  ⟨⟨{ State.reset with inputs := [⟨true, false, none⟩] }, State.reset, rfl, by decide⟩,
    ⟨{ block .halted 0x0001#16 0x00#8 [] with inputs := [⟨false, true, none⟩] }, block .fetching 0x0000#16 0x00#8 [],
      rfl, by decide, by decide⟩,
    ⟨block .fetching 0x0000#16 0x00#8 [0xE8#8], block .dispatching 0x0001#16 0xE8#8 [0xE8#8], rfl, by decide,
      by decide⟩,
    ⟨block .dispatching 0x0001#16 0x00#8 [0x00#8], block .halted 0x0001#16 0x00#8 [0x00#8], rfl, by decide, by decide⟩⟩

/-- A step that changes each register. -/
theorem witness_RegistersAreWrittenOnlyByTheirWriters :
    (∃ s t : State, step s = .next t ∧ s.nextInput.rst = false ∧ t.a ≠ s.a) ∧
    (∃ s t : State, step s = .next t ∧ s.nextInput.rst = false ∧ t.x ≠ s.x ∧ t.p ≠ s.p) ∧
    (∃ s t : State, step s = .next t ∧ s.nextInput.rst = false ∧ t.ir ≠ s.ir) :=
  ⟨⟨block .dispatching 0x0001#16 0xA9#8 [0xA9#8, 0x01#8],
      blockAxp .fetching 0x0002#16 0xA9#8 [0xA9#8, 0x01#8] 0x01#8 0x00#8 0x00#8, rfl, by decide, by decide⟩,
    ⟨blockAxp .dispatching 0x0001#16 0xE8#8 [0xE8#8] 0x00#8 0xFF#8 0x00#8,
      blockAxp .fetching 0x0001#16 0xE8#8 [0xE8#8] 0x00#8 0x00#8 0x02#8, rfl, by decide, by decide⟩,
    ⟨block .fetching 0x0000#16 0x00#8 [0xE8#8], block .dispatching 0x0001#16 0xE8#8 [0xE8#8], rfl, by decide,
      by decide⟩⟩

/-- The three rows of the table: the empty buffer, an opcode in no row, and an `0xA9` that is the last byte. -/
theorem witness_FaultsArePrecise :
    (∃ s t : State, s.fsm = .fetching ∧ s.inputs = [] ∧ runSteps 2 s = .next t ∧ t.fsm = .faulted ∧
      s.progLen ≤ s.pc.toNat) ∧
    (∃ s t : State, s.fsm = .fetching ∧ s.inputs = [] ∧ runSteps 2 s = .next t ∧ t.fsm = .faulted ∧
      t.faultKind = .unimplementedOpcode) ∧
    (∃ s t : State, s.fsm = .fetching ∧ s.inputs = [] ∧ runSteps 2 s = .next t ∧ t.fsm = .faulted ∧
      s.pc.toNat < s.progLen ∧ t.faultKind = .outOfBounds) :=
  ⟨⟨State.reset, { State.reset with fsm := .faulted, faultKind := .outOfBounds },
      by decide, by decide, rfl, by decide, by decide⟩,
    ⟨block .fetching 0x0000#16 0x00#8 [0xFF#8],
      { block .faulted 0x0001#16 0xFF#8 [0xFF#8] with faultKind := .unimplementedOpcode, faultInfo := 0x00FF#16 },
      by decide, by decide, rfl, by decide, by decide⟩,
    ⟨block .fetching 0x0000#16 0x00#8 [0xA9#8],
      { block .faulted 0x0001#16 0xA9#8 [0xA9#8] with faultKind := .outOfBounds, faultInfo := 0x0001#16 },
      by decide, by decide, rfl, by decide, by decide, by decide⟩⟩

/-- A halt, and each of the two faults. -/
theorem witness_RunEndsOnlyByBrkOrTheTwoFaults :
    (∃ s t : State, Running s ∧ step s = .next t ∧ t.fsm = .halted) ∧
    (∃ s t : State, Running s ∧ step s = .next t ∧ t.fsm = .faulted ∧ t.faultKind = .outOfBounds) ∧
    (∃ s t : State, Running s ∧ step s = .next t ∧ t.fsm = .faulted ∧ t.faultKind = .unimplementedOpcode) :=
  ⟨⟨block .dispatching 0x0001#16 0x00#8 [0x00#8], block .halted 0x0001#16 0x00#8 [0x00#8], by decide, rfl,
      by decide⟩,
    ⟨State.reset, { State.reset with fsm := .faulted, faultKind := .outOfBounds }, by decide, rfl, by decide,
      by decide⟩,
    ⟨block .dispatching 0x0001#16 0xFF#8 [0xFF#8],
      { block .faulted 0x0001#16 0xFF#8 [0xFF#8] with faultKind := .unimplementedOpcode, faultInfo := 0x00FF#16 },
      by decide, rfl, by decide, by decide⟩⟩

theorem witness_HaltAndFaultEndARunDifferently :
    (∃ s t : State, Running s ∧ s.faultKind = .none ∧ step s = .next t ∧ t.fsm = .halted) ∧
    (∃ s t : State, Running s ∧ s.faultKind = .none ∧ step s = .next t ∧ t.fsm = .faulted) :=
  ⟨⟨block .dispatching 0x0001#16 0x00#8 [0x00#8], block .halted 0x0001#16 0x00#8 [0x00#8], by decide, by decide, rfl,
      by decide⟩,
    ⟨State.reset, { State.reset with fsm := .faulted, faultKind := .outOfBounds }, by decide, by decide, rfl,
      by decide⟩⟩

/-- A raise, a record kept, and a record cleared by start. -/
theorem witness_FaultRecordChangesInThreeWays :
    (∃ s t : State, step s = .next t ∧ t.faultKind ≠ s.faultKind) ∧
    (∃ s t : State, step s = .next t ∧ s.faultKind = .outOfBounds ∧ t.faultKind = .none) ∧
    (∃ s t : State, (s.fsm ≠ .faulted → s.faultKind = .none) ∧ step s = .next t ∧ t.fsm ≠ .faulted) :=
  ⟨⟨State.reset, { State.reset with fsm := .faulted, faultKind := .outOfBounds }, rfl, by decide⟩,
    ⟨{ State.reset with fsm := .faulted, faultKind := .outOfBounds, inputs := [⟨false, true, none⟩] }, State.reset, rfl,
      by decide, by decide⟩,
    ⟨block .fetching 0x0000#16 0x00#8 [0xE8#8], block .dispatching 0x0001#16 0xE8#8 [0xE8#8], fun _ => rfl, rfl,
      by decide⟩⟩

/-- The state in the middle of an instruction, where every clause of the control invariant says something. -/
theorem witness_EveryStepKeepsBufferAndControl :
    ∃ s t : State, BufferInv s ∧ ControlInv s ∧ step s = .next t ∧ s.fsm = .dispatching := by
  refine ⟨block .dispatching 0x0001#16 0x00#8 [0x00#8, 0xE8#8], block .halted 0x0001#16 0x00#8 [0x00#8, 0xE8#8],
    ⟨by decide, by decide, by decide⟩, ⟨?_, ?_, ?_, ?_, ?_, ?_, ?_⟩, rfl, by decide⟩ <;> decide

theorem witness_EveryStepKeepsStatusFlags :
    ∃ s t : State, FlagInv s ∧ step s = .next t ∧ t.p ≠ s.p :=
  ⟨blockAxp .dispatching 0x0001#16 0xE8#8 [0xE8#8] 0x00#8 0xFF#8 0x80#8,
    blockAxp .fetching 0x0001#16 0xE8#8 [0xE8#8] 0x00#8 0x00#8 0x02#8, ⟨by decide, by decide⟩, rfl, by decide⟩

/-- The longest buffer the statement speaks of, and a completed instruction of a run. -/
theorem witness_ShorterBufferRunEnds :
    (∃ s : State, s.fsm = .fetching ∧ s.pc = 0x0000#16 ∧ s.inputs = [] ∧ s.progLen ≤ 65535 ∧ s.progLen = 65535) ∧
    (∃ (s : State) (k : Nat) (t : State), s.fsm = .fetching ∧ s.pc = 0x0000#16 ∧ s.inputs = [] ∧ s.progLen ≤ 65535 ∧
      runSteps (2 * k) s = .next t ∧ t.fsm = .fetching ∧ k = 1) :=
  ⟨⟨{ State.reset with progLen := 65535 }, by decide⟩,
    ⟨block .fetching 0x0000#16 0x00#8 [0xE8#8], 1,
      blockAxp .fetching 0x0001#16 0xE8#8 [0xE8#8] 0x00#8 0x01#8 0x00#8,
      by decide, by decide, by decide, by decide, rfl, by decide, rfl⟩⟩

/-- In a buffer of 65536 bytes `0xE8` (P5), every opcode on the path is `0xE8`. -/
theorem inx_everywhere_path (m : Memory) (hm : ∀ i, i < 65536 → m.read i = 0xE8#8) (s : State)
    (hf : s.fsm = .fetching) (hi : s.inputs = []) (hl : s.progLen = 65536) (hp : s.prog = m) (k : Nat) (u : State)
    (hk : runSteps k s = .next u) (hu : u.fsm = .dispatching) : u.ir = 0xE8#8 := by
  have keep : ∀ v w : State,
      (v.inputs = [] ∧ v.progLen = 65536 ∧ v.prog = m ∧ (v.fsm = .dispatching → v.ir = 0xE8#8)) →
      step v = .next w →
      (w.inputs = [] ∧ w.progLen = 65536 ∧ w.prog = m ∧ (w.fsm = .dispatching → w.ir = 0xE8#8)) := by
    rintro v w ⟨h1, h2, h3, h4⟩ hs
    obtain ⟨w', hw, hc⟩ := step_of_no_inputs v h1
    rw [hw] at hs
    cases hs
    cases hc
    case fetch => exact ⟨h1, h2, h3, fun _ => by rw [h3]; exact hm _ v.pc.isLt⟩
    all_goals exact ⟨h1, h2, h3, by simp_all⟩
  exact (runSteps_induction keep ⟨hi, hl, hp, by rw [hf]; simp⟩ hk).2.2.2 hu

theorem witness_FullBufferRunMayNeverEnd :
    ∃ s : State, s.fsm = .fetching ∧ s.inputs = [] ∧ s.progLen = 65536 ∧
      ∀ k u, runSteps k s = .next u → u.fsm = .dispatching →
        u.ir = 0xA9#8 ∨ u.ir = 0xAA#8 ∨ u.ir = 0xE8#8 := by
  obtain ⟨m, hm⟩ : ∃ m : Memory, ∀ i, i < 65536 → m.read i = 0xE8#8 :=
    ⟨Memory.ofBytes 0 (List.replicate 65536 0xE8#8), fun i hi => by
      have h := Memory.read_ofBytes (List.replicate 65536 0xE8#8) 0 i (by rw [List.length_replicate]; exact hi)
      rwa [Nat.zero_add, List.getElem_replicate] at h⟩
  refine ⟨{ State.reset with prog := m, progLen := 65536 }, rfl, rfl, rfl, fun k u hk hu => ?_⟩
  exact .inr (.inr (inx_everywhere_path m hm _ rfl rfl rfl rfl k u hk hu))

end Sys2Proof.Tests
end

/-! PROOFS. The family of spec/10_state.md: the reset values, the outputs, where a completed instruction leaves `PC`,
the unwritten bits of `P`, and the fault record. The rules about the transition and the step come first. -/

namespace Sys2Proof.Machine

/-! ### The cases of a transition and of a step, read backwards

`fsmTransition_cases` and `step_cases` say that an answer is one of the cases; these say that a case is the answer. -/

theorem fsmTransition_of_dispatching {s : State} (hf : s.fsm = .dispatching) :
    s.fsmTransition = s.dispatchTransition := by
  simp only [State.fsmTransition, hf]

theorem TransitionCase.fsmTransition_eq {s t : State} (h : TransitionCase s t) : s.fsmTransition = .next t := by
  cases h with
  | fetch hf hb => simp only [State.fsmTransition, hf, fetchOpcode_of_lt s hb]
  | fetchFault hf hb => simp only [State.fsmTransition, hf, fetchOpcode_of_ge s hb]
  | brk hf ho => rw [fsmTransition_of_dispatching hf, dispatch_brk s ho]
  | lda hf ho hb => rw [fsmTransition_of_dispatching hf, dispatch_lda_of_lt s ho hb]
  | ldaFault hf ho hb => rw [fsmTransition_of_dispatching hf, dispatch_lda_of_ge s ho hb]
  | tax hf ho => rw [fsmTransition_of_dispatching hf, dispatch_tax s ho]
  | inx hf ho => rw [fsmTransition_of_dispatching hf, dispatch_inx s ho]
  | unimplemented hf ho => rw [fsmTransition_of_dispatching hf, dispatch_unimplemented s ho]
  | halted hf => simp only [State.fsmTransition, hf]
  | faulted hf => simp only [State.fsmTransition, hf]

theorem StepCase.step_eq {s t : State} (ha : supplyAccepted s) (h : StepCase s t) : step s = .next t := by
  rw [step_of_accepted s ha]
  cases h with
  | reset hr => simp [hostOrFsm, hr]
  | start hr hs ht => simp [hostOrFsm, hr, hs, ht]
  | transition hr hs t ht =>
    rcases hs with hs | hs <;> simp [hostOrFsm, hr, hs, ht.fsmTransition_eq]

theorem Fsm.terminal_iff {q : Fsm} : q.terminal = true ↔ q = .halted ∨ q = .faulted := by
  cases q <;> decide

/-! ### An instruction's two transitions -/

/-- With nothing driven, a step from Fetching is the Fetching transition. -/
theorem step_of_fetching {s : State} (hf : s.fsm = .fetching) (hi : s.inputs = []) :
    step s = .next s.fetchOpcode := by
  rw [step_of_quiet s (quiet_of_no_inputs s hi), takeInput_of_no_inputs s hi]
  simp only [State.fsmTransition, hf]

/-- With nothing driven, a step from Dispatching runs the instruction that its bytes decode to. -/
theorem step_of_dispatching {s : State} {i : Instr} {rest : List Byte} (hf : s.fsm = .dispatching)
    (hi : s.inputs = []) (hd : decode s.dispatchBytes = .instr i rest) : step s = exec i s := by
  rw [step_of_quiet s (quiet_of_no_inputs s hi), takeInput_of_no_inputs s hi, fsmTransition_of_dispatching hf]
  simp only [State.dispatchTransition, hd]

/-- Bytes that decode to an instruction begin in bounds. -/
theorem lt_progLen_of_decode_bytesAt {s : State} {j : Word} {i : Instr} {rest : List Byte}
    (h : decode (s.bytesAt j) = .instr i rest) : j.toNat < s.progLen := by
  by_contra hb
  simp [State.bytesAt, hb, decode] at h

/-- After a fetch the Dispatching transition decodes the bytes that stood at `PC`. -/
theorem dispatchBytes_fetchOpcode {s : State} (hb : s.pc.toNat < s.progLen) :
    s.fetchOpcode.dispatchBytes = s.bytesAt s.pc := by
  rw [fetchOpcode_of_lt s hb]
  by_cases ho : (s.pc + 1#16).toNat < s.progLen
  · rw [dispatchBytes_of_lt _ ho]; simp only [State.bytesAt, hb, ho, if_true]
  · rw [dispatchBytes_of_ge _ ho]; simp only [State.bytesAt, hb, ho, if_true, if_false]

/-- A lone opcode byte is no LDA: its operand is missing (R93). -/
theorem decode_singleton_ne_ldaImm (op v : Byte) (rest : List Byte) : decode [op] ≠ .instr (.ldaImm v) rest := by
  simp only [decode]
  cases decodeOpcode op with
  | none => simp
  | some o => cases o <;> simp

/-- An LDA is decoded only where its operand can be consumed. -/
theorem operand_lt_progLen_of_decode {s : State} {v : Byte} {rest : List Byte}
    (h : decode s.dispatchBytes = .instr (.ldaImm v) rest) : s.pc.toNat < s.progLen := by
  by_contra hb
  rw [dispatchBytes_of_ge s hb] at h
  exact decode_singleton_ne_ldaImm _ _ _ h

/-- Settles O12: the first step is the fetch, which leaves `PC` one past the opcode; the second is `exec` of the decoded
instruction, whose operand is in bounds if it is an LDA. -/
theorem completedInstructionAdvancesPc : Obligations.CompletedInstructionAdvancesPc := by
  unfold Obligations.CompletedInstructionAdvancesPc
  intro s i rest hf hi hd
  have hb := lt_progLen_of_decode_bytesAt hd
  rw [← dispatchBytes_fetchOpcode hb] at hd
  have hu := fetchOpcode_of_lt s hb
  have hpc : s.fetchOpcode.pc = s.pc + 1#16 := by rw [hu]
  have hfsm : s.fetchOpcode.fsm = .dispatching := by rw [hu]
  have hfirst : step s = .next s.fetchOpcode := step_of_fetching hf hi
  have hsecond : step s.fetchOpcode = exec i s.fetchOpcode := step_of_dispatching hfsm (by rw [hu]; exact hi) hd
  cases i with
  | brk => exact ⟨_, _, hfirst, hfsm, hsecond.trans (execBrk_eq _), hpc, rfl⟩
  | ldaImm v =>
    have hpc2 : s.fetchOpcode.pc + 1#16 = s.pc + 2#16 := by rw [hpc, BitVec.add_assoc]; rfl
    have hexec := execLdaImm_of_lt v s.fetchOpcode (operand_lt_progLen_of_decode hd)
    exact ⟨_, _, hfirst, hfsm, hsecond.trans hexec, hpc2, rfl⟩
  | tax => exact ⟨_, _, hfirst, hfsm, hsecond.trans (execTax_eq _), hpc, rfl⟩
  | inx => exact ⟨_, _, hfirst, hfsm, hsecond.trans (execInx_eq _), hpc, rfl⟩

/-! ### The bits of `P` that no transition writes (R26)

The mask `0x82` is Z and N, the mask `0x7D` the other six. -/

theorem flagOf_and (p q : Byte) (f : Flag) : flagOf (p &&& q) f = (flagOf p f && flagOf q f) :=
  BitVec.getLsbD_and

/-- The flag policy keeps the six bits. -/
theorem zeroNegative_and_unwritten (p r : Byte) : zeroNegative p r &&& 0x7D#8 = p &&& 0x7D#8 := by
  refine eq_of_flagOf fun f => ?_
  have hm : flagOf 0x7D#8 f = decide (f ≠ .negative ∧ f ≠ .zero) := by cases f <;> decide
  rw [flagOf_and, flagOf_and, flagOf_zeroNegative, hm]
  by_cases hn : f = .negative
  · simp [hn]
  · by_cases hz : f = .zero <;> simp [hn, hz]

/-- The two bits the flag policy leaves come from the result alone. -/
theorem zeroNegative_and_written (p q r : Byte) : zeroNegative p r &&& 0x82#8 = zeroNegative q r &&& 0x82#8 := by
  refine eq_of_flagOf fun f => ?_
  have hm : flagOf 0x82#8 f = decide (f = .negative ∨ f = .zero) := by cases f <;> decide
  rw [flagOf_and, flagOf_and, flagOf_zeroNegative, flagOf_zeroNegative, hm]
  by_cases hn : f = .negative
  · simp [hn]
  · by_cases hz : f = .zero <;> simp [hn, hz]

theorem TransitionCase.keeps_unwritten {s t : State} (h : TransitionCase s t) : t.p &&& 0x7D#8 = s.p &&& 0x7D#8 := by
  cases h
  case lda | tax | inx => exact zeroNegative_and_unwritten _ _
  all_goals rfl

/-- The FSM makes the same transition with any other `P`, and Z and N after it differ only if they did before. -/
theorem TransitionCase.with_p {s t : State} {q : Byte} (hq : q &&& 0x82#8 = s.p &&& 0x82#8)
    (h : TransitionCase s t) :
    ∃ q', TransitionCase { s with p := q } { t with p := q' } ∧ q' &&& 0x82#8 = t.p &&& 0x82#8 := by
  cases h with
  | fetch hf hb => exact ⟨q, .fetch hf hb, hq⟩
  | fetchFault hf hb => exact ⟨q, .fetchFault hf hb, hq⟩
  | brk hf ho => exact ⟨q, .brk hf ho, hq⟩
  | lda hf ho hb => exact ⟨_, .lda hf ho hb, zeroNegative_and_written _ _ _⟩
  | ldaFault hf ho hb => exact ⟨q, .ldaFault hf ho hb, hq⟩
  | tax hf ho => exact ⟨_, .tax hf ho, zeroNegative_and_written _ _ _⟩
  | inx hf ho => exact ⟨_, .inx hf ho, zeroNegative_and_written _ _ _⟩
  | unimplemented hf ho => exact ⟨q, .unimplemented hf ho, hq⟩
  | halted hf => exact ⟨q, .halted hf, hq⟩
  | faulted hf => exact ⟨q, .faulted hf, hq⟩

/-- Taking the host's input and its buffer has nothing to do with `P`. -/
theorem edgeState_with_p (s : State) (q : Byte) : edgeState { s with p := q } = { edgeState s with p := q } := by
  have hn : State.nextInput { s with p := q } = s.nextInput := rfl
  unfold edgeState
  rw [hn]
  cases s.nextInput.buffer <;> rfl

theorem StepCase.keeps_unwritten {s t : State} (h : StepCase s t) (hr : s.nextInput.rst = false) :
    t.p &&& 0x7D#8 = s.p &&& 0x7D#8 := by
  cases h with
  | reset hr' => rw [hr] at hr'; cases hr'
  | start => exact congrArg (· &&& 0x7D#8) (edgeState_p s)
  | transition _ _ _ ht => rw [ht.keeps_unwritten, edgeState_p]

/-- The edge goes the same way with any other `P`, and Z and N after it differ only if they did before. -/
theorem StepCase.with_p {s t : State} {q : Byte} (hq : q &&& 0x82#8 = s.p &&& 0x82#8) (h : StepCase s t) :
    ∃ q', StepCase { s with p := q } { t with p := q' } ∧ q' &&& 0x82#8 = t.p &&& 0x82#8 := by
  have he := edgeState_with_p s q
  cases h with
  | reset hr =>
    have hc := StepCase.reset (s := { s with p := q }) hr
    rw [he] at hc
    exact ⟨0x00#8, hc, rfl⟩
  | start hr hs ht =>
    have hc := StepCase.start (s := { s with p := q }) hr hs ht
    rw [he] at hc
    exact ⟨q, hc, hq.trans (congrArg (· &&& 0x82#8) (edgeState_p s).symm)⟩
  | transition hr hs t ht =>
    obtain ⟨q', hc, hq'⟩ := ht.with_p (q := q) (by rw [hq, edgeState_p])
    rw [← he] at hc
    exact ⟨q', .transition (s := { s with p := q }) hr hs _ hc, hq'⟩

/-- Settles O24: the only values written to `P` outside reset are those of the flag policy, which keeps the six bits,
and no guard of a transition looks at `P`. -/
theorem unwrittenFlagsKeptAndWithoutEffect : Obligations.UnwrittenFlagsKeptAndWithoutEffect := by
  unfold Obligations.UnwrittenFlagsKeptAndWithoutEffect
  refine ⟨fun s t h hr => (step_cases h).2.keeps_unwritten hr, fun s t q hq h => ?_⟩
  obtain ⟨ha, hc⟩ := step_cases h
  obtain ⟨q', hc', hq'⟩ := hc.with_p hq
  exact ⟨q', hc'.step_eq ha, hq'⟩

/-! ### The fault record (R31) -/

/-- A transition keeps the record, and Faulted if the block is in it, or it raises a fault. -/
theorem TransitionCase.fault_record {s t : State} (h : TransitionCase s t) :
    (t.faultKind = s.faultKind ∧ t.faultInfo = s.faultInfo ∧ (s.fsm = .faulted → t.fsm = .faulted)) ∨
    (Running s ∧ t.fsm = .faulted ∧ t.faultKind ≠ .none) := by
  cases h with
  | fetch hf | brk hf | lda hf | tax hf | inx hf => exact .inl ⟨rfl, rfl, fun h => by rw [hf] at h; cases h⟩
  | halted | faulted => exact .inl ⟨rfl, rfl, id⟩
  | fetchFault hf => exact .inr ⟨.inl hf, rfl, by simp⟩
  | ldaFault hf | unimplemented hf => exact .inr ⟨.inr hf, rfl, by simp⟩

/-- A step keeps the record, and Faulted if the block is in it, or it raises a fault, or reset or start clears the
record. -/
theorem StepCase.fault_record {s t : State} (h : StepCase s t) :
    (t.faultKind = s.faultKind ∧ t.faultInfo = s.faultInfo ∧ (s.fsm = .faulted → t.fsm = .faulted)) ∨
    (Running s ∧ t.fsm = .faulted ∧ t.faultKind ≠ .none) ∨
    ((s.nextInput.rst = true ∨ (s.nextInput.start = true ∧ (s.fsm = .halted ∨ s.fsm = .faulted))) ∧
      t.faultKind = .none ∧ t.faultInfo = 0x0000#16) := by
  cases h with
  | reset hr => exact .inr (.inr ⟨.inl hr, rfl, rfl⟩)
  | start _ hs ht => exact .inr (.inr ⟨.inr ⟨hs, Fsm.terminal_iff.1 ht⟩, rfl, rfl⟩)
  | transition _ _ _ ht =>
    have hrec := ht.fault_record
    simp only [Running, edgeState_faultKind, edgeState_faultInfo, edgeState_fsm] at hrec
    exact hrec.imp_right .inl

/-- Settles O33. The second clause follows from the first: a record that was kept held no fault, since a step out of
Faulted is a reset or a start, which clears it. -/
theorem faultRecordChangesInThreeWays : Obligations.FaultRecordChangesInThreeWays := by
  unfold Obligations.FaultRecordChangesInThreeWays
  constructor
  · intro s t h
    exact (step_cases h).2.fault_record.imp_left fun ⟨hk, hinfo, _⟩ => ⟨hk, hinfo⟩
  · intro s t hs h hne
    rcases (step_cases h).2.fault_record with ⟨hk, -, hstay⟩ | ⟨-, hfaulted, -⟩ | ⟨-, hnone, -⟩
    · exact hk.trans (hs (mt hstay hne))
    · exact absurd hfaulted hne
    · exact hnone

/-! ### The reset values and the outputs -/

/-- Settles O1: the fields of `State.reset` are the values of R36. -/
theorem resetStateHoldsSpecValues : Obligations.ResetStateHoldsSpecValues :=
  ⟨rfl, rfl, rfl, rfl, rfl, rfl, rfl, rfl⟩

/-- The reserved code is no kind's code (R29). -/
theorem faultKindCode_ne_reserved (k : FaultKind) : faultKindCode k ≠ 0b11#2 := by
  cases k <;> decide

/-- Settles O42: the outputs are the codes of the state's `fsm` and `fault_kind` (R33), whatever these are. -/
theorem outputCodes : Obligations.OutputCodes := by
  unfold Obligations.OutputCodes
  refine ⟨rfl, rfl, fun s => ⟨?_, ?_, faultKindCode_ne_reserved s.faultKind⟩⟩
  · show fsmCode s.fsm = _
    cases s.fsm <;> rfl
  · show faultKindCode s.faultKind = _
    cases s.faultKind <;> rfl

end Sys2Proof.Machine

/-! PROOFS. The family of spec/20_memory.md: no transition writes the program buffer, and the two reads of it. -/

namespace Sys2Proof.Machine

/-! ### The program buffer is kept (R41) -/

theorem TransitionCase.keeps_buffer {s t : State} (h : TransitionCase s t) :
    t.prog = s.prog ∧ t.progLen = s.progLen := by
  cases h <;> exact ⟨rfl, rfl⟩

theorem fsmTransition_keeps_buffer {s t : State} (h : s.fsmTransition = .next t) :
    t.prog = s.prog ∧ t.progLen = s.progLen := by
  obtain ⟨u, hu, hc⟩ := fsmTransition_cases s
  obtain rfl : u = t := by simpa [hu] using h
  exact hc.keeps_buffer

/-- Whatever an edge does, it leaves the buffer as it is once the host's supply is in place. -/
theorem StepCase.keeps_edge_buffer {s t : State} (h : StepCase s t) :
    t.prog = (edgeState s).prog ∧ t.progLen = (edgeState s).progLen := by
  cases h with
  | reset => exact ⟨rfl, rfl⟩
  | start => exact ⟨rfl, rfl⟩
  | transition _ _ _ ht => exact ht.keeps_buffer

theorem step_keeps_buffer {s t : State} (hb : s.nextInput.buffer = none) (h : step s = .next t) :
    t.prog = s.prog ∧ t.progLen = s.progLen := by
  have hkeep := (step_cases h).2.keeps_edge_buffer
  rwa [edgeState_of_none s hb] at hkeep

/-- Settles O25: every case of a transition, and reset and start, leave the buffer's two fields, and equal buffers
read the same. -/
theorem programBufferIsReadOnly : Obligations.ProgramBufferIsReadOnly := by
  unfold Obligations.ProgramBufferIsReadOnly
  refine ⟨fun s t h => fsmTransition_keeps_buffer h, fun s t hb h => ?_⟩
  obtain ⟨hprog, hlen⟩ := step_keeps_buffer hb h
  exact ⟨hprog, hlen, fun n => by rw [hprog]⟩

/-! ### The reads of the program buffer (R40) -/

theorem opcodeLength_eq_two_iff {o : Opcode} : opcodeLength o = 2 ↔ o = .ldaImm := by
  cases o <;> decide

/-- LDA's is the one opcode with an operand byte (R61). -/
theorem decodeOpcode_length_eq_two_iff {op : Byte} :
    (decodeOpcode op).map opcodeLength = some 2 ↔ op = 0xA9#8 := by
  simp [opcodeLength_eq_two_iff, decodeOpcode_eq_some, opcodeByte]

theorem fsmRead_of_fetching {s : State} (hf : s.fsm = .fetching) :
    s.fsmRead = if s.pc.toNat < s.progLen then some s.pc else none := by
  simp [State.fsmRead, hf, State.inBounds]

theorem fsmRead_of_dispatching {s : State} (hf : s.fsm = .dispatching) :
    s.fsmRead = if s.ir = 0xA9#8 ∧ s.pc.toNat < s.progLen then some s.pc else none := by
  simp only [State.fsmRead, hf, State.inBounds, decodeOpcode_length_eq_two_iff, decide_eq_true_eq]

theorem fsmRead_of_terminal {s : State} (hf : s.fsm = .halted ∨ s.fsm = .faulted) : s.fsmRead = none := by
  rcases hf with hf | hf <;> simp only [State.fsmRead, hf]

/-- Settles O26: Fetching reads its opcode and Dispatching the operand of an LDA, both at `PC` behind the bounds
check; Halted and Faulted read nothing. -/
theorem onlyTwoReadsBothAtPc : Obligations.OnlyTwoReadsBothAtPc := by
  unfold Obligations.OnlyTwoReadsBothAtPc
  intro s i
  cases hf : s.fsm with
  | fetching =>
    rw [fsmRead_of_fetching hf, Option.ite_none_right_eq_some]
    constructor
    · rintro ⟨hb, ⟨⟩⟩
      exact ⟨rfl, hb, .inl rfl⟩
    · rintro ⟨rfl, hb, -⟩
      exact ⟨hb, rfl⟩
  | dispatching =>
    rw [fsmRead_of_dispatching hf, Option.ite_none_right_eq_some]
    constructor
    · rintro ⟨⟨ho, hb⟩, ⟨⟩⟩
      exact ⟨rfl, hb, .inr ⟨rfl, ho⟩⟩
    · rintro ⟨rfl, hb, ⟨⟨⟩⟩ | ⟨-, ho⟩⟩
      exact ⟨⟨ho, hb⟩, rfl⟩
  | halted => simp [fsmRead_of_terminal (.inl hf)]
  | faulted => simp [fsmRead_of_terminal (.inr hf)]

end Sys2Proof.Machine

/-! PROOFS. The family of spec/40_alu_flags.md: the closed form of the flag policy, and an instruction's results as a
function of its operand and the registers. -/

namespace Sys2Proof.Machine

/-! ### The closed form of the flag policy (R68) -/

theorem flagOf_or (p q : Byte) (f : Flag) : flagOf (p ||| q) f = (flagOf p f || flagOf q f) :=
  BitVec.getLsbD_or

/-- One bit shifted to a flag's place is that flag and no other. -/
theorem flagOf_bit_shiftLeft (c : Prop) [Decidable c] (f g : Flag) :
    flagOf ((if c then 1#8 else 0#8) <<< flagBit f) g = (decide (g = f) && decide c) := by
  by_cases hc : c
  · simp only [hc, if_true, decide_true, Bool.and_true]
    cases f <;> cases g <;> decide
  · simp only [hc, if_false, decide_false, Bool.and_false]
    cases f <;> cases g <;> decide

/-- The mask `0x7D` is the six flags other than Z and N. -/
theorem flagOf_unwrittenMask (f : Flag) : flagOf 0x7D#8 f = decide (f ≠ .negative ∧ f ≠ .zero) := by
  cases f <;> decide

/-- Every flag of the closed form: Z and N from the result, the other six through the mask. -/
theorem flagOf_closedFlags (p r : Byte) (f : Flag) :
    flagOf (closedFlags p r) f =
      if f = .negative then r.getLsbD 7 else if f = .zero then r == 0x00#8 else flagOf p f := by
  have hn := flagOf_bit_shiftLeft (r.getLsbD 7 = true) .negative f
  have hz := flagOf_bit_shiftLeft (r = 0x00#8) .zero f
  simp only [flagBit] at hn hz
  rw [closedFlags, flagOf_or, flagOf_or, flagOf_and, flagOf_unwrittenMask, hn, hz]
  by_cases hneg : f = .negative
  · simp [hneg]
  · by_cases hzero : f = .zero <;> simp [hneg, hzero, beq_eq_decide]

theorem zeroNegative_eq_closedFlags (p r : Byte) : zeroNegative p r = closedFlags p r :=
  eq_of_flagOf fun f => (flagOf_zeroNegative p r f).trans (flagOf_closedFlags p r f).symm

/-- Settles O20: the policy writes `zeroNegative` to `P` and nothing else, and the flags of `zeroNegative` are known one
by one. -/
theorem flagPolicyWritesOnlyZeroAndNegative : Obligations.FlagPolicyWritesOnlyZeroAndNegative := by
  unfold Obligations.FlagPolicyWritesOnlyZeroAndNegative
  intro s r
  have hf (f : Flag) := flagOf_zeroNegative s.p r f
  refine ⟨rfl, zeroNegative_eq_closedFlags s.p r, ?_, ?_, fun f hz hn => ?_⟩
  · exact (hf .zero).trans (by simp [beq_eq_decide])
  · exact (hf .negative).trans (if_pos rfl)
  · exact (hf f).trans (by rw [if_neg hn, if_neg hz])

/-! ### Results as a function of the operand and the registers (R74) -/

/-- `A`, `X` and `P` after an instruction whose operand, if it has one, is there: a function of the operand and of
these registers. -/
def resultRegisters (i : Instr) (a x p : Byte) : Byte × Byte × Byte :=
  match i with
  | .brk => (a, x, p)
  | .ldaImm v => (v, x, zeroNegative p v)
  | .tax => (a, a, zeroNegative p a)
  | .inx => (a, aluInc x, zeroNegative p (aluInc x))

theorem exec_resultRegisters {i : Instr} {s t : State} (hb : ∀ v, i = .ldaImm v → s.pc.toNat < s.progLen)
    (h : exec i s = .next t) : (t.a, t.x, t.p) = resultRegisters i s.a s.x s.p := by
  rcases exec_cases h with
    ⟨rfl, rfl⟩ | ⟨v, rfl, -, rfl⟩ | ⟨v, hi, hge, -⟩ | ⟨rfl, rfl⟩ | ⟨rfl, rfl⟩
  case inr.inr.inl => exact absurd (hb v hi) hge
  all_goals rfl

/-- Settles O22: both executions answer `resultRegisters` of the same arguments. -/
theorem resultsDependOnOperandAndRegistersOnly : Obligations.ResultsDependOnOperandAndRegistersOnly := by
  unfold Obligations.ResultsDependOnOperandAndRegistersOnly
  intro i s s' t t' ha hx hp hb h h'
  have hr := exec_resultRegisters (fun v hi => (hb v hi).1) h
  have hr' := exec_resultRegisters (fun v hi => (hb v hi).2) h'
  rw [ha, hx, hp, ← hr'] at hr
  simpa only [Prod.mk.injEq] using hr

end Sys2Proof.Machine

/-! PROOFS. The family of spec/41_fetch_decode_execute.md: the handlers and `PC`, the Fetching transition and the
unimplemented opcode, the one byte a transition depends on, and which runs end. -/

namespace Sys2Proof.Machine

/-! ### The handlers and `PC` (R83) -/

/-- Settles O23: of the ways a meaning can go, only an LDA with its operand in bounds writes `PC`. -/
theorem handlersAdvancePcOnlyForAnOperand : Obligations.HandlersAdvancePcOnlyForAnOperand := by
  unfold Obligations.HandlersAdvancePcOnlyForAnOperand
  intro i s t h hne
  rcases exec_cases h with
    ⟨-, rfl⟩ | ⟨v, rfl, -, rfl⟩ | ⟨v, -, -, rfl⟩ | ⟨-, rfl⟩ | ⟨-, rfl⟩
  case inr.inl => exact ⟨⟨v, rfl⟩, rfl⟩
  all_goals exact absurd rfl hne

/-! ### A transition on a quiet edge (R76, R77, R80) -/

/-- On a quiet edge a case of the transition, from the state with the edge's input taken, is what the step answers. -/
theorem TransitionCase.step_eq_of_quiet {s t : State} (hq : Quiet s) (h : TransitionCase s.takeInput t) :
    step s = .next t :=
  (step_of_quiet s hq).trans h.fsmTransition_eq

/-- Settles O9: the two cases of Fetching, on the two sides of the bound. -/
theorem fetchingReadsAdvancesOrFaults : Obligations.FetchingReadsAdvancesOrFaults := by
  unfold Obligations.FetchingReadsAdvancesOrFaults
  intro s hf hq
  refine ⟨fsmRead_of_fetching hf, ?_⟩
  by_cases hb : s.pc.toNat < s.progLen
  · rw [if_pos hb]
    exact TransitionCase.step_eq_of_quiet hq (.fetch hf hb)
  · rw [if_neg hb]
    exact TransitionCase.step_eq_of_quiet hq (.fetchFault hf hb)

/-- Settles O10: such an opcode selects no row of the map, and in Dispatching only an `0xA9` reads. -/
theorem unimplementedOpcodeFaults : Obligations.UnimplementedOpcodeFaults := by
  unfold Obligations.UnimplementedOpcodeFaults
  intro s hf hq hbrk hlda htax hinx
  have ho : decodeOpcode s.ir = none := decodeOpcode_eq_none.2 ⟨hbrk, hlda, htax, hinx⟩
  constructor
  · exact TransitionCase.step_eq_of_quiet hq (.unimplemented hf ho)
  · rw [fsmRead_of_dispatching hf, if_neg fun h => hlda h.1]

/-! ### The one byte a transition depends on (R89) -/

/-- The FSM makes the same transition with any buffer that agrees at the index it reads. -/
theorem TransitionCase.with_prog {s t : State} {m : Memory}
    (hm : ∀ i : Word, s.fsmRead = some i → m.read i.toNat = s.prog.read i.toNat) (h : TransitionCase s t) :
    TransitionCase { s with prog := m } { t with prog := m } := by
  cases h with
  | fetch hf hb =>
    rw [← hm s.pc (by rw [fsmRead_of_fetching hf, if_pos hb])]
    exact .fetch (s := { s with prog := m }) hf hb
  | lda hf ho hb =>
    rw [← hm s.pc (by rw [fsmRead_of_dispatching hf, if_pos ⟨ho, hb⟩])]
    exact .lda (s := { s with prog := m }) hf ho hb
  | fetchFault hf hb => exact .fetchFault hf hb
  | brk hf ho => exact .brk hf ho
  | ldaFault hf ho hb => exact .ldaFault hf ho hb
  | tax hf ho => exact .tax hf ho
  | inx hf ho => exact .inx hf ho
  | unimplemented hf ho => exact .unimplemented hf ho
  | halted hf => exact .halted hf
  | faulted hf => exact .faulted hf

/-- With no supply, taking the host's input leaves the buffer to be what it is. -/
theorem edgeState_with_prog {s : State} (hb : s.nextInput.buffer = none) (m : Memory) :
    edgeState { s with prog := m } = { edgeState s with prog := m } := by
  rw [edgeState_of_none s hb, edgeState_of_none { s with prog := m } hb]
  rfl

theorem fsmRead_edgeState {s : State} (hb : s.nextInput.buffer = none) : (edgeState s).fsmRead = s.fsmRead := by
  rw [edgeState_of_none s hb]
  rfl

/-- With no supply, the edge goes the same way with any buffer that agrees at the index read. -/
theorem StepCase.with_prog {s t : State} {m : Memory} (hb : s.nextInput.buffer = none)
    (hm : ∀ i : Word, s.fsmRead = some i → m.read i.toNat = s.prog.read i.toNat) (h : StepCase s t) :
    StepCase { s with prog := m } { t with prog := m } := by
  have he := edgeState_with_prog hb m
  cases h with
  | reset hr =>
    have hc := StepCase.reset (s := { s with prog := m }) hr
    rwa [he] at hc
  | start hr hs ht =>
    have hc := StepCase.start (s := { s with prog := m }) hr hs ht
    rwa [he] at hc
  | transition hr hs t ht =>
    have hprog : (edgeState s).prog = s.prog := by rw [edgeState_of_none s hb]; rfl
    have hc := ht.with_prog (m := m) (by rwa [fsmRead_edgeState hb, hprog])
    rw [← he] at hc
    exact .transition (s := { s with prog := m }) hr hs _ hc

/-- Settles O27: reset and start read nothing, and each case of a transition looks at the buffer only at the index
`fsmRead` names. -/
theorem stepDependsOnAtMostOneByte : Obligations.StepDependsOnAtMostOneByte := by
  unfold Obligations.StepDependsOnAtMostOneByte
  intro s t m hb hm h
  obtain ⟨ha, hc⟩ := step_cases h
  exact (hc.with_prog hb hm).step_eq ha

/-! ### Runs in which the host drives nothing -/

theorem TransitionCase.keeps_inputs {s t : State} (h : TransitionCase s t) : t.inputs = s.inputs := by
  cases h <;> rfl

theorem runSteps_one (s : State) : runSteps 1 s = step s := by
  rw [runSteps_succ]
  cases step s <;> rfl

/-- A run of `k + 1` steps is a run of `k` and a step. -/
theorem runSteps_succ_last {s t : State} {k : Nat} (h : runSteps k s = .next t) :
    runSteps (k + 1) s = step t := by
  induction k generalizing s with
  | zero =>
    cases h
    exact runSteps_one _
  | succ k ih =>
    obtain ⟨u, hu, ht⟩ := runSteps_succ_next h
    rw [runSteps_succ_of_next (k + 1) hu, ih ht]

/-- With nothing driven every run answers, and what holds of its beginning and is kept by every transition on it holds
of its end. `Good k` may speak of the number of steps. -/
theorem runSteps_next_of_no_inputs {s : State} (hi : s.inputs = []) {Good : Nat → State → Prop} (h0 : Good 0 s)
    (keep : ∀ k t u, runSteps k s = .next t → Good k t → TransitionCase t u → Good (k + 1) u) (k : Nat) :
    ∃ t, runSteps k s = .next t ∧ t.inputs = [] ∧ Good k t := by
  induction k with
  | zero => exact ⟨s, rfl, hi, h0⟩
  | succ k ih =>
    obtain ⟨t, ht, hti, hgood⟩ := ih
    obtain ⟨u, hu, hc⟩ := step_of_no_inputs t hti
    exact ⟨u, (runSteps_succ_last ht).trans hu, hc.keeps_inputs.trans hti, keep k t u ht hgood hc⟩

/-! ### A shorter buffer: every run ends (R87) -/

/-- `PC` has not passed the end of a buffer too short for it to wrap. -/
structure ShortRunInv (s : State) : Prop where
  length_le : s.progLen ≤ 65535
  pc_le : s.pc.toNat ≤ s.progLen

/-- How many transitions a run of a shorter buffer can still make: two for each index not yet read, and what the
present state needs to reach the next read or the end. -/
def transitionsLeft (s : State) : Nat :=
  match s.fsm with
  | .fetching => 2 * (s.progLen - s.pc.toNat) + 1
  | .dispatching => 2 * (s.progLen - s.pc.toNat) + 2
  | .halted => 0
  | .faulted => 0

theorem transitionsLeft_of_fetching {s : State} (hf : s.fsm = .fetching) :
    transitionsLeft s = 2 * (s.progLen - s.pc.toNat) + 1 := by
  simp only [transitionsLeft, hf]

theorem transitionsLeft_of_dispatching {s : State} (hf : s.fsm = .dispatching) :
    transitionsLeft s = 2 * (s.progLen - s.pc.toNat) + 2 := by
  simp only [transitionsLeft, hf]

/-- Below the end of a shorter buffer, `PC + 1` does not wrap. -/
theorem ShortRunInv.toNat_pc_succ {s : State} (hs : ShortRunInv s) (hb : s.pc.toNat < s.progLen) :
    (s.pc + 1#16).toNat = s.pc.toNat + 1 := by
  have hlen := hs.length_le
  rw [BitVec.toNat_add, BitVec.toNat_ofNat]
  omega

theorem TransitionCase.keeps_shortRunInv {s t : State} (h : TransitionCase s t) (hs : ShortRunInv s) :
    ShortRunInv t := by
  cases h
  case fetch hf hb | lda hf ho hb => exact ⟨hs.length_le, (hs.toNat_pc_succ hb).trans_le hb⟩
  all_goals exact ⟨hs.length_le, hs.pc_le⟩

/-- A transition that leaves the block running uses up at least one of the transitions left. -/
theorem TransitionCase.transitionsLeft_lt {s t : State} (h : TransitionCase s t) (hs : ShortRunInv s)
    (ht : Running t) : transitionsLeft t < transitionsLeft s := by
  cases h with
  | fetch hf hb =>
    rw [transitionsLeft_of_fetching hf, transitionsLeft_of_dispatching rfl, hs.toNat_pc_succ hb]
    show 2 * (s.progLen - (s.pc.toNat + 1)) + 2 < _
    omega
  | lda hf ho hb =>
    rw [transitionsLeft_of_dispatching hf, transitionsLeft_of_fetching rfl, hs.toNat_pc_succ hb]
    show 2 * (s.progLen - (s.pc.toNat + 1)) + 1 < _
    omega
  | tax hf | inx hf =>
    rw [transitionsLeft_of_dispatching hf, transitionsLeft_of_fetching rfl]
    exact Nat.lt_succ_self _
  | fetchFault | brk | ldaFault | unimplemented => rcases ht with ht | ht <;> cases ht
  | halted hf | faulted hf => rcases ht with ht | ht <;> cases hf.symm.trans ht

/-- No transition leads from a terminal state to a running one (R81, R82). -/
theorem TransitionCase.running_before {s t : State} (h : TransitionCase s t) (ht : Running t) : Running s := by
  cases h with
  | fetch hf | fetchFault hf => exact .inl hf
  | brk hf | lda hf | ldaFault hf | tax hf | inx hf | unimplemented hf => exact .inr hf
  | halted | faulted => exact ht

/-- What is known of the state `t` that `k` steps of a shorter buffer's run from `s` lead to: while it is running, the
steps made and the transitions left are no more than there were to make at `s`. -/
structure ShortRunFrom (s : State) (k : Nat) (t : State) : Prop where
  inv : ShortRunInv t
  steps_le : Running t → k + transitionsLeft t ≤ transitionsLeft s

theorem ShortRunFrom.start {s : State} (hs : ShortRunInv s) : ShortRunFrom s 0 s :=
  ⟨hs, fun _ => (Nat.zero_add _).le⟩

theorem ShortRunFrom.succ {s t u : State} {k : Nat} (h : ShortRunFrom s k t) (hc : TransitionCase t u) :
    ShortRunFrom s (k + 1) u := by
  refine ⟨hc.keeps_shortRunInv h.inv, fun hu => ?_⟩
  have hlt := hc.transitionsLeft_lt h.inv hu
  have hle := h.steps_le (hc.running_before hu)
  omega

/-- Every run of a shorter buffer from Fetching at `PC` 0 answers, within the bound on its transitions. -/
theorem runSteps_shortRun {s : State} (hf : s.fsm = .fetching) (hpc : s.pc = 0x0000#16) (hi : s.inputs = [])
    (hlen : s.progLen ≤ 65535) (k : Nat) :
    ∃ t, runSteps k s = .next t ∧ (Running t → k + transitionsLeft t ≤ 2 * s.progLen + 1) := by
  have hs : ShortRunInv s := ⟨hlen, by simp [hpc]⟩
  have hleft : transitionsLeft s = 2 * s.progLen + 1 := by simp [transitionsLeft_of_fetching hf, hpc]
  obtain ⟨t, ht, -, hrun⟩ :=
    runSteps_next_of_no_inputs hi (ShortRunFrom.start hs) (fun _ _ _ _ h hc => h.succ hc) k
  exact ⟨t, ht, fun hr => (hrun.steps_le hr).trans_eq hleft⟩

theorem terminal_of_not_running {s : State} (h : ¬ Running s) : s.fsm = .halted ∨ s.fsm = .faulted := by
  cases hf : s.fsm with
  | fetching => exact absurd (.inl hf) h
  | dispatching => exact absurd (.inr hf) h
  | halted => exact .inl rfl
  | faulted => exact .inr rfl

/-- Settles O37: a run begins with `2 * PROG_LEN + 1` transitions left. One step more is too many to be still running,
and in Fetching at least one transition is left. -/
theorem shorterBufferRunEnds : Obligations.ShorterBufferRunEnds := by
  unfold Obligations.ShorterBufferRunEnds
  intro s hf hpc hi hlen
  have hruns := runSteps_shortRun hf hpc hi hlen
  constructor
  · obtain ⟨t, ht, hle⟩ := hruns (2 * s.progLen + 2)
    refine ⟨_, t, le_rfl, ht, terminal_of_not_running fun hr => ?_⟩
    have := hle hr
    omega
  · intro k t ht htf
    obtain ⟨u, hu, hle⟩ := hruns (2 * k)
    obtain rfl : u = t := Host.Outcome.next.inj (hu.symm.trans ht)
    have hle := hle (.inl htf)
    rw [transitionsLeft_of_fetching htf] at hle
    omega

/-! ### A full buffer: no end without a BRK or an unimplemented opcode (R88) -/

/-- With every index in bounds, a running block stays running unless it dispatches an opcode that is not LDA, TAX or
INX. -/
theorem TransitionCase.keeps_running {s t : State} (h : TransitionCase s t) (hlen : s.progLen = 65536)
    (hop : s.fsm = .dispatching → s.ir = 0xA9#8 ∨ s.ir = 0xAA#8 ∨ s.ir = 0xE8#8) (hr : Running s) : Running t := by
  have hbound : s.pc.toNat < s.progLen := by rw [hlen]; exact s.pc.isLt
  cases h with
  | fetch => exact .inr rfl
  | lda | tax | inx => exact .inl rfl
  | fetchFault _ hb | ldaFault _ _ hb => exact absurd hbound hb
  | brk hf ho => exact absurd (hop hf) (by rw [ho]; decide)
  | unimplemented hf ho =>
    obtain ⟨-, hlda, htax, hinx⟩ := decodeOpcode_eq_none.1 ho
    rcases hop hf with h | h | h
    · exact absurd h hlda
    · exact absurd h htax
    · exact absurd h hinx
  | halted | faulted => exact hr

/-- Settles O38: along the run the length stays 65536, and so the block stays running. -/
theorem fullBufferRunMayNeverEnd : Obligations.FullBufferRunMayNeverEnd := by
  unfold Obligations.FullBufferRunMayNeverEnd
  intro s hf hi hlen hpath k
  obtain ⟨t, ht, -, -, hr⟩ := runSteps_next_of_no_inputs hi
    (Good := fun _ t => t.progLen = 65536 ∧ Running t) ⟨hlen, .inl hf⟩
    (fun k t _ ht ⟨htlen, hr⟩ hc =>
      ⟨hc.keeps_buffer.2.trans htlen, hc.keeps_running htlen (hpath k t ht) hr⟩) k
  exact ⟨t, ht, hr⟩

end Sys2Proof.Machine

/-! PROOFS. The family of spec/42_halt.md: BRK. -/

namespace Sys2Proof.Machine

/-- BRK is its opcode byte alone (R90). -/
theorem decode_brk (rest : List Byte) : decode (0x00#8 :: rest) = .instr .brk rest := rfl

/-- With nothing driven, a case of the transition is what the step answers. -/
theorem TransitionCase.step_eq_of_no_inputs {s t : State} (hi : s.inputs = []) (h : TransitionCase s t) :
    step s = .next t :=
  TransitionCase.step_eq_of_quiet (quiet_of_no_inputs s hi) (by rwa [takeInput_of_no_inputs s hi])

/-- Dispatching a BRK reads no operand, whether or not `PC` is in bounds (R91). -/
theorem fsmRead_of_dispatching_brk {s : State} (hf : s.fsm = .dispatching) (ho : s.ir = 0x00#8) :
    s.fsmRead = none := by
  rw [fsmRead_of_dispatching hf, ho]
  exact if_neg fun h => absurd h.1 (by decide)

/-- A BRK takes two transitions: the fetch, which advances `PC`, and the Dispatching that halts. -/
theorem runSteps_two_of_brk {s : State} (hf : s.fsm = .fetching) (hi : s.inputs = [])
    (hb : s.pc.toNat < s.progLen) (ho : s.prog.read s.pc.toNat = 0x00#8) :
    runSteps 2 s = .next { s with ir := 0x00#8, pc := s.pc + 1#16, fsm := .halted } := by
  have hfetch : step s = .next { s with ir := 0x00#8, pc := s.pc + 1#16, fsm := .dispatching } := by
    rw [← ho]
    exact TransitionCase.step_eq_of_no_inputs hi (.fetch hf hb)
  rw [runSteps_succ_of_next 1 hfetch, runSteps_one]
  exact TransitionCase.step_eq_of_no_inputs hi (.brk rfl rfl)

/-- Settles O15: BRK's encoding, its meaning, the two states in which it has nothing to read, and its two
transitions. -/
theorem brkHaltsAndChangesNothingElse : Obligations.BrkHaltsAndChangesNothingElse := by
  unfold Obligations.BrkHaltsAndChangesNothingElse
  refine ⟨decode_brk, execBrk_eq, fun s h => ?_, fun _ => runSteps_two_of_brk⟩
  rcases h with ⟨hf, ho⟩ | hf
  · exact fsmRead_of_dispatching_brk hf ho
  · exact fsmRead_of_terminal (.inl hf)

end Sys2Proof.Machine

/-! PROOFS. The family of spec/43_load_transfer.md: LDA, on both sides of its operand's bound, and TAX. -/

namespace Sys2Proof.Machine

/-! ### The encodings and the meanings -/

/-- LDA is its opcode byte and the operand byte after it (R92). -/
theorem decode_ldaImm (v : Byte) (rest : List Byte) : decode (0xA9#8 :: v :: rest) = .instr (.ldaImm v) rest := rfl

/-- TAX is its opcode byte alone (R94). -/
theorem decode_tax (rest : List Byte) : decode (0xAA#8 :: rest) = .instr .tax rest := rfl

theorem exec_ldaImm_of_lt (v : Byte) {s : State} (hb : s.pc.toNat < s.progLen) :
    exec (.ldaImm v) s =
      .next { s with a := v, p := closedFlags s.p v, pc := s.pc + 1#16, fsm := .fetching } := by
  rw [← zeroNegative_eq_closedFlags]
  exact execLdaImm_of_lt v s hb

theorem exec_ldaImm_of_le (v : Byte) {s : State} (hb : s.progLen ≤ s.pc.toNat) :
    exec (.ldaImm v) s = .next { s with faultKind := .outOfBounds, faultInfo := s.pc, fsm := .faulted } :=
  execLdaImm_of_ge v s hb.not_gt

theorem exec_tax (s : State) :
    exec .tax s = .next { s with x := s.a, p := closedFlags s.p s.a, fsm := .fetching } := by
  rw [← zeroNegative_eq_closedFlags]
  exact execTax_eq s

/-! ### LDA's Dispatching transition on a quiet edge -/

theorem step_lda_of_lt {s : State} (hf : s.fsm = .dispatching) (ho : s.ir = 0xA9#8) (hq : Quiet s)
    (hb : s.pc.toNat < s.progLen) :
    step s = .next { s with
      a := s.prog.read s.pc.toNat, p := closedFlags s.p (s.prog.read s.pc.toNat), pc := s.pc + 1#16,
      fsm := .fetching, inputs := s.inputs.tail } := by
  rw [← zeroNegative_eq_closedFlags]
  exact TransitionCase.step_eq_of_quiet hq (.lda hf ho hb)

theorem step_lda_of_le {s : State} (hf : s.fsm = .dispatching) (ho : s.ir = 0xA9#8) (hq : Quiet s)
    (hb : s.progLen ≤ s.pc.toNat) :
    step s = .next { s with
      faultKind := .outOfBounds, faultInfo := s.pc, fsm := .faulted, inputs := s.inputs.tail } :=
  TransitionCase.step_eq_of_quiet hq (.ldaFault hf ho hb.not_gt)

/-- Behind the bounds check, an operand index out of bounds is not read (R45, R93). -/
theorem fsmRead_of_dispatching_of_le {s : State} (hf : s.fsm = .dispatching) (hb : s.progLen ≤ s.pc.toNat) :
    s.fsmRead = none := by
  rw [fsmRead_of_dispatching hf]
  exact if_neg fun h => hb.not_gt h.2

/-! ### The statements -/

/-- Settles O16: the load in bounds, by `exec` and by the step on the byte at `PC`, and the fault out of bounds. -/
theorem ldaImmLoadsAndSetsFlags : Obligations.LdaImmLoadsAndSetsFlags := by
  unfold Obligations.LdaImmLoadsAndSetsFlags
  exact ⟨decode_ldaImm, fun v _ => exec_ldaImm_of_lt v, fun _ => step_lda_of_lt, fun v _ => exec_ldaImm_of_le v⟩

/-- Settles O17: the meaning and the transition raise the same fault, and the index is not read. -/
theorem ldaOperandOutOfBoundsFaults : Obligations.LdaOperandOutOfBoundsFaults := by
  unfold Obligations.LdaOperandOutOfBoundsFaults
  refine ⟨fun v _ => exec_ldaImm_of_le v, fun s hf ho hq hb => ?_⟩
  exact ⟨step_lda_of_le hf ho hq hb, fsmRead_of_dispatching_of_le hf hb⟩

/-- Settles O18: the encoding and the meaning of TAX, with the flag policy in its closed form. -/
theorem taxCopiesAndSetsFlags : Obligations.TaxCopiesAndSetsFlags := by
  unfold Obligations.TaxCopiesAndSetsFlags
  exact ⟨decode_tax, exec_tax⟩

end Sys2Proof.Machine

/-! PROOFS. The family of spec/44_increment.md: INX. -/

namespace Sys2Proof.Machine

/-- INX is its opcode byte alone (R96). -/
theorem decode_inx (rest : List Byte) : decode (0xE8#8 :: rest) = .instr .inx rest := rfl

/-- The modulus of the increment is 256 (R72). -/
theorem aluInc_eq_ofNat_mod (x : Byte) : aluInc x = BitVec.ofNat 8 ((x.toNat + 1) % 256) := rfl

theorem exec_inx (s : State) :
    exec .inx s = .next { s with x := aluInc s.x, p := closedFlags s.p (aluInc s.x), fsm := .fetching } := by
  rw [← zeroNegative_eq_closedFlags]
  exact execInx_eq s

/-- A flag other than Z and N goes through the closed form as it was (R68). -/
theorem flagOf_closedFlags_of_ne {f : Flag} (hn : f ≠ .negative) (hz : f ≠ .zero) (p r : Byte) :
    flagOf (closedFlags p r) f = flagOf p f := by
  rw [flagOf_closedFlags, if_neg hn, if_neg hz]

/-- Settles O19: the encoding and the meaning of INX; Carry and Overflow are flags that the closed form keeps. -/
theorem inxIncrementsAndSetsFlags : Obligations.InxIncrementsAndSetsFlags := by
  unfold Obligations.InxIncrementsAndSetsFlags
  simp only [← aluInc_eq_ofNat_mod]
  refine ⟨decode_inx, exec_inx, fun s t h => ?_⟩
  obtain rfl := Host.Outcome.next.inj ((exec_inx s).symm.trans h)
  exact ⟨flagOf_closedFlags_of_ne (by decide) (by decide) _ _,
    flagOf_closedFlags_of_ne (by decide) (by decide) _ _⟩

end Sys2Proof.Machine

/-! PROOFS. The family of spec/60_exceptions.md: where a run ends, and what a fault leaves. -/

namespace Sys2Proof.Machine

/-! ### The transition that ends a run -/

/-- With nothing driven, a step's answer is a case of the transition. -/
theorem transitionCase_of_no_inputs {s t : State} (hi : s.inputs = []) (h : step s = .next t) :
    TransitionCase s t := by
  obtain ⟨u, hu, hc⟩ := step_of_no_inputs s hi
  obtain rfl := Host.Outcome.next.inj (hu.symm.trans h)
  exact hc

/-- A step out of a running state into a terminal one is a transition on the buffer as it stands: reset leads to
Fetching, start acts in terminal states only (R120), and without reset no buffer is taken during a run (R127). -/
theorem transitionCase_of_run_end {s t : State} (hr : Running s) (h : step s = .next t) (ht : ¬ Running t) :
    TransitionCase s.takeInput t := by
  have hnt : s.fsm.terminal ≠ true := by rcases hr with hf | hf <;> rw [hf] <;> decide
  obtain ⟨ha, hc⟩ := step_cases h
  cases hc with
  | reset => exact absurd (.inl rfl) ht
  | start _ _ hterm => exact absurd hterm hnt
  | transition hrst _ _ hc =>
    have hb : s.nextInput.buffer = none := by
      refine Option.eq_none_iff_forall_ne_some.2 fun bytes hb => ?_
      rcases (ha bytes hb).2 with h' | h'
      · exact absurd (hrst.symm.trans h') (by decide)
      · exact hnt h'
    rwa [edgeState_of_none s hb] at hc

theorem TransitionCase.brk_of_halted {s t : State} (h : TransitionCase s t) (hr : Running s)
    (ht : t.fsm = .halted) : s.fsm = .dispatching ∧ s.ir = 0x00#8 := by
  cases h with
  | brk hf ho => exact ⟨hf, ho⟩
  | fetch | fetchFault | lda | ldaFault | tax | inx | unimplemented => cases ht
  | halted hf | faulted hf => rcases hr with hr | hr <;> cases hf.symm.trans hr

/-- A transition into Faulted is one of the two raises, with nothing else changed (R99, R100, R101). -/
theorem TransitionCase.raise_of_faulted {s t : State} (h : TransitionCase s t) (hr : Running s)
    (ht : t.fsm = .faulted) :
    (s.progLen ≤ s.pc.toNat ∧ (s.fsm = .fetching ∨ (s.fsm = .dispatching ∧ s.ir = 0xA9#8)) ∧
      t = s.raiseOutOfBounds s.pc) ∨
    (s.fsm = .dispatching ∧ decodeOpcode s.ir = none ∧ t = s.raiseUnimplementedOpcode s.ir) := by
  cases h with
  | fetchFault hf hb => exact .inl ⟨Nat.le_of_not_lt hb, .inl hf, rfl⟩
  | ldaFault hf ho hb => exact .inl ⟨Nat.le_of_not_lt hb, .inr ⟨hf, ho⟩, rfl⟩
  | unimplemented hf ho => exact .inr ⟨hf, ho, rfl⟩
  | fetch | brk | lda | tax | inx => cases ht
  | halted hf | faulted hf => rcases hr with hr | hr <;> cases hf.symm.trans hr

/-- Settles O31: the step is a transition, and it halts by BRK or faults by one of the two raises. -/
theorem runEndsOnlyByBrkOrTheTwoFaults : Obligations.RunEndsOnlyByBrkOrTheTwoFaults := by
  unfold Obligations.RunEndsOnlyByBrkOrTheTwoFaults
  intro s t hr h
  constructor
  · intro ht
    exact (transitionCase_of_run_end hr h (by simp [Running, ht])).brk_of_halted hr ht
  · intro ht
    rcases (transitionCase_of_run_end hr h (by simp [Running, ht])).raise_of_faulted hr ht with
      ⟨hb, hat, rfl⟩ | ⟨hf, ho, rfl⟩
    · exact .inl ⟨rfl, rfl, hb, hat⟩
    · exact .inr ⟨rfl, rfl, hf, decodeOpcode_eq_none.1 ho⟩

/-- Settles O32: a step that does not enter Faulted records no fault (O33), and one that does records one of the two
kinds (O31). -/
theorem haltAndFaultEndARunDifferently : Obligations.HaltAndFaultEndARunDifferently := by
  unfold Obligations.HaltAndFaultEndARunDifferently
  intro s t hr hs h
  obtain ⟨-, hnone⟩ := faultRecordChangesInThreeWays
  obtain ⟨-, hraised⟩ := runEndsOnlyByBrkOrTheTwoFaults s t hr h
  constructor
  · intro ht
    exact ⟨ht, hnone s t (fun _ => hs) h (by simp [ht])⟩
  · intro ht
    refine ⟨ht, ?_⟩
    rcases hraised ht with ⟨hk, -⟩ | ⟨hk, -⟩ <;> simp [hk]

/-! ### The state a fault leaves (R102) -/

theorem TransitionCase.eq_of_faulted {s t : State} (h : TransitionCase s t) (hf : s.fsm = .faulted) : t = s :=
  Host.Outcome.next.inj (h.fsmTransition_eq.symm.trans (TransitionCase.faulted hf).fsmTransition_eq)

/-- Settles O30: the fetch faults and the second step changes nothing, or the fetch leaves `PC + 1` and the opcode, and
the second step is one of the two raises. -/
theorem faultsArePrecise : Obligations.FaultsArePrecise := by
  unfold Obligations.FaultsArePrecise
  intro s t hf hi h ht
  obtain ⟨u, hu, hut⟩ := runSteps_succ_next h
  rw [runSteps_one] at hut
  have hfirst : TransitionCase s u := transitionCase_of_no_inputs hi hu
  have hsecond : TransitionCase u t := transitionCase_of_no_inputs (hfirst.keeps_inputs.trans hi) hut
  cases hfirst with
  | fetchFault _ hb =>
    obtain rfl := hsecond.eq_of_faulted rfl
    exact ⟨rfl, rfl, rfl, .inl ⟨Nat.le_of_not_lt hb, rfl, rfl, rfl, rfl⟩⟩
  | fetch _ hb =>
    rcases hsecond.raise_of_faulted (.inr rfl) ht with ⟨hlen, hat, rfl⟩ | ⟨-, ho, rfl⟩
    · obtain ⟨-, ho⟩ := hat.resolve_left (by simp)
      exact ⟨rfl, rfl, rfl, .inr (.inr ⟨hb, ho, hlen, rfl, ho, rfl, rfl⟩)⟩
    · exact ⟨rfl, rfl, rfl, .inr (.inl ⟨hb, ho, rfl, rfl, rfl, rfl⟩)⟩
  | brk hf' | lda hf' | ldaFault hf' | tax hf' | inx hf' | unimplemented hf' | halted hf' | faulted hf' =>
    cases hf.symm.trans hf'

end Sys2Proof.Machine

/-! PROOFS. The family of spec/70_reset_and_hazards.md: the reset action, the start action, and which of the two an
edge takes. -/

namespace Sys2Proof.Machine

/-! ### What the edge does with the buffer in place -/

/-- Reset takes the edge whatever `start` is (R33, R120). -/
theorem hostOrFsm_of_rst {e : HostInput} (hr : e.rst = true) (s : State) : hostOrFsm e s = .next s.resetAction :=
  if_pos hr

/-- Start acts in a terminal state when no reset takes the edge (R119). -/
theorem hostOrFsm_of_start {e : HostInput} {s : State} (hr : e.rst = false) (hs : e.start = true)
    (ht : s.fsm.terminal = true) : hostOrFsm e s = .next s.startAction := by
  simp [hostOrFsm, hr, hs, ht]

theorem not_terminal_of_running {s : State} (h : Running s) : s.fsm.terminal = false := by
  rcases h with hf | hf <;> rw [hf] <;> rfl

/-- Without reset, a running block makes its transition whatever `start` is (R120). -/
theorem hostOrFsm_of_running {e : HostInput} {s : State} (hr : e.rst = false) (h : Running s) :
    hostOrFsm e s = s.fsmTransition := by
  simp [hostOrFsm, hr, not_terminal_of_running h]

/-! ### The edge with its supply -/

theorem takeInput_of_cons {s : State} {e : HostInput} {es : List HostInput} (h : s.inputs = e :: es) :
    s.takeInput = { s with inputs := es } := by
  rw [takeInput_eq, h]
  rfl

/-- The host's supply replaces the buffer only, so the FSM state is kept (R124). -/
theorem hostSupply_keeps_fsm {e : HostInput} {s t : State} (h : hostSupply e s = .next t) : t.fsm = s.fsm := by
  unfold hostSupply at h
  split at h
  · cases h; rfl
  · split at h
    · split at h
      · cases h; rfl
      · cases h
    · cases h

/-- Whether and how a supply is taken does not depend on `start`. -/
theorem hostSupply_start (r st st' : Bool) (b : Option (List Byte)) (s : State) :
    hostSupply ⟨r, st, b⟩ s = hostSupply ⟨r, st', b⟩ s := rfl

/-- Two inputs that differ in `start` alone have the same edge if they act alike on every state in the same FSM
state. -/
theorem clockEdge_start_congr {r st st' : Bool} {b : Option (List Byte)} {s : State}
    (h : ∀ t : State, t.fsm = s.fsm → hostOrFsm ⟨r, st, b⟩ t = hostOrFsm ⟨r, st', b⟩ t) :
    clockEdge ⟨r, st, b⟩ s = clockEdge ⟨r, st', b⟩ s := by
  unfold clockEdge
  rw [hostSupply_start r st st' b s]
  cases hsup : hostSupply ⟨r, st', b⟩ s with
  | next t => exact h t (hostSupply_keeps_fsm hsup)
  | fault | refused => rfl

/-! ### The statements -/

/-- Settles O2: with no supply the edge acts on the state as it stands, and it acts by reset. -/
theorem resetActionSetsEveryElement : Obligations.ResetActionSetsEveryElement := by
  unfold Obligations.ResetActionSetsEveryElement
  intro s st es h
  have he := nextInput_of_cons s _ es h
  rw [step_of_no_buffer s (by rw [he]), he, hostOrFsm_of_rst rfl, takeInput_of_cons h]
  rfl

/-- Settles O3: with no supply the edge acts on the state as it stands, and in a terminal state it acts by start. -/
theorem startActionBeginsNewRun : Obligations.StartActionBeginsNewRun := by
  unfold Obligations.StartActionBeginsNewRun
  intro s es h hf
  have he := nextInput_of_cons s _ es h
  have ht : s.fsm.terminal = true := Fsm.terminal_iff.2 hf
  rw [step_of_no_buffer s (by rw [he]), he, takeInput_of_cons h]
  exact hostOrFsm_of_start rfl rfl ht

/-- Settles O4: without reset a running block makes its transition whatever `start` is, and with reset the action is
the same whatever `start` is. -/
theorem startIgnoredWhileRunningAndResetWins : Obligations.StartIgnoredWhileRunningAndResetWins := by
  unfold Obligations.StartIgnoredWhileRunningAndResetWins
  refine ⟨fun s b es hrun => ?_, fun s b es => ?_, fun s es => ?_⟩
  · refine clockEdge_start_congr fun t ht => ?_
    have hrun' : Running t := by rwa [Running, ht]
    rw [hostOrFsm_of_running rfl hrun', hostOrFsm_of_running rfl hrun']
  · refine clockEdge_start_congr fun t _ => ?_
    rw [hostOrFsm_of_rst rfl, hostOrFsm_of_rst rfl]
  · exact resetActionSetsEveryElement { s with inputs := ⟨true, true, none⟩ :: es } true es rfl

end Sys2Proof.Machine

/-! PROOFS. The statements over every step and every state: what the host's supply does to an edge, how the FSM moves,
who writes each register, the invariants of the block, and that decode and encode agree. -/

namespace Sys2Proof.Machine

/-! ### The host's supply at an edge (R43, R124, R127) -/

theorem supplyAccepted_of_no_buffer {s : State} (hb : s.nextInput.buffer = none) : supplyAccepted s :=
  fun _ hsome => by cases hb.symm.trans hsome

/-- Without reset no buffer is taken during a run, so the edge acts on the buffer as it stands. -/
theorem edgeState_of_running {s : State} (ha : supplyAccepted s) (hr : s.nextInput.rst = false) (hrun : Running s) :
    edgeState s = s.takeInput := by
  refine edgeState_of_none s (Option.eq_none_iff_forall_ne_some.2 fun bytes hb => ?_)
  obtain ⟨-, hrst | hterm⟩ := ha bytes hb
  · cases hr.symm.trans hrst
  · cases (not_terminal_of_running hrun).symm.trans hterm

/-- A buffer too long is refused before anything else is looked at. -/
theorem hostSupply_of_oversized {e : HostInput} {bytes : List Byte} (hb : e.buffer = some bytes)
    (hl : 65536 < bytes.length) (s : State) : hostSupply e s = .refused .progLenOutOfRange := by
  have hw : imageWf bytes = false := decide_eq_false hl.not_ge
  simp [hostSupply, hb, hw]

theorem hostSupply_of_running {e : HostInput} {bytes : List Byte} {s : State} (hb : e.buffer = some bytes)
    (hl : bytes.length ≤ 65536) (hr : e.rst = false) (hrun : Running s) :
    hostSupply e s = .fault .bufferChangedDuringRun := by
  have hw : imageWf bytes = true := decide_eq_true hl
  simp [hostSupply, hb, hw, hr, not_terminal_of_running hrun]

/-- Settles O6: the supply is refused, and with it the edge. -/
theorem oversizedBufferRefused : Obligations.OversizedBufferRefused := by
  unfold Obligations.OversizedBufferRefused
  intro s r st bytes es h hl
  have hsup := hostSupply_of_oversized (e := ⟨r, st, some bytes⟩) rfl hl s.takeInput
  simp only [step, clockEdge, nextInput_of_cons s _ es h, hsup]

/-- Settles O7: the supply ends in the model's fault, and with it the edge. -/
theorem bufferChangeDuringRunStops : Obligations.BufferChangeDuringRunStops := by
  unfold Obligations.BufferChangeDuringRunStops
  intro s st bytes es h hl hrun
  have hsup := hostSupply_of_running (e := ⟨false, st, some bytes⟩) (s := s.takeInput) rfl hl rfl hrun
  simp only [step, clockEdge, nextInput_of_cons s _ es h, hsup]

/-- Settles O14: an edge without a supply is one whose supply is accepted, and the FSM always has an answer. -/
theorem stepAnswersNextWithoutBufferSupply : Obligations.StepAnswersNextWithoutBufferSupply := by
  unfold Obligations.StepAnswersNextWithoutBufferSupply
  intro s hb
  exact step_next_of_accepted s (supplyAccepted_of_no_buffer hb)

/-- The state on which an edge with a supply acts. -/
theorem edgeState_of_cons {s : State} {r st : Bool} {bytes : List Byte} {es : List HostInput}
    (h : s.inputs = ⟨r, st, some bytes⟩ :: es) :
    edgeState s = { s with prog := Memory.ofBytes 0 bytes, progLen := bytes.length, inputs := es } := by
  rw [edgeState, nextInput_of_cons s _ es h, takeInput_of_cons h]
  rfl

/-- A supply of a length that fits is accepted under reset and in a terminal state. -/
theorem supplyAccepted_of_cons {s : State} {r st : Bool} {bytes : List Byte} {es : List HostInput}
    (h : s.inputs = ⟨r, st, some bytes⟩ :: es) (hl : bytes.length ≤ 65536)
    (hwhen : r = true ∨ s.fsm = .halted ∨ s.fsm = .faulted) : supplyAccepted s := by
  intro bytes' hb
  rw [nextInput_of_cons s _ es h] at hb ⊢
  cases hb
  exact ⟨hl, hwhen.imp_right Fsm.terminal_iff.2⟩

/-- Settles O8: the buffer is the list of the host's bytes, and the edge acts with it in place by reset, by start, or by
the transition of a terminal state, which changes nothing. -/
theorem suppliedBufferIsReadBack : Obligations.SuppliedBufferIsReadBack := by
  unfold Obligations.SuppliedBufferIsReadBack
  intro s r st bytes es h hl hwhen
  refine ⟨Memory.ofBytes 0 bytes, fun i hi => ?_, Memory.wf_ofBytes bytes 0, fun c hc => ?_, ?_⟩
  · simpa using Memory.read_ofBytes bytes 0 i hi
  · simpa using (Memory.mem_ofBytes bytes 0 c hc).2.1
  · have he := nextInput_of_cons s _ es h
    have hedge := edgeState_of_cons h
    refine StepCase.step_eq (supplyAccepted_of_cons h hl hwhen) ?_
    cases r with
    | true =>
      rw [if_pos rfl]
      have hc := StepCase.reset (s := s) (by rw [he])
      rwa [hedge] at hc
    | false =>
      have hf : s.fsm = .halted ∨ s.fsm = .faulted := hwhen.resolve_left (by decide)
      rw [if_neg (by decide)]
      cases st with
      | true =>
        rw [if_pos rfl]
        have hc := StepCase.start (s := s) (by rw [he]) (by rw [he]) (Fsm.terminal_iff.2 hf)
        rwa [hedge] at hc
      | false =>
        rw [if_neg (by decide), ← hedge]
        refine .transition (by rw [he]) (.inl (by rw [he])) _ ?_
        rcases hf with hf | hf
        · exact .halted (by rw [edgeState_fsm, hf])
        · exact .faulted (by rw [edgeState_fsm, hf])

/-! ### The FSM (R75, R81, R82) -/

/-- On a quiet edge a step's answer is a case of the transition. -/
theorem transitionCase_of_quiet {s t : State} (hq : Quiet s) (h : step s = .next t) :
    TransitionCase s.takeInput t := by
  obtain ⟨u, hu, hc⟩ := fsmTransition_cases s.takeInput
  obtain rfl := Host.Outcome.next.inj (((step_of_quiet s hq).trans hu).symm.trans h)
  exact hc

theorem TransitionCase.of_terminal {s : State} (hf : s.fsm = .halted ∨ s.fsm = .faulted) : TransitionCase s s :=
  hf.elim .halted .faulted

theorem TransitionCase.eq_of_terminal {s t : State} (h : TransitionCase s t)
    (hf : s.fsm = .halted ∨ s.fsm = .faulted) : t = s :=
  Host.Outcome.next.inj (h.fsmTransition_eq.symm.trans (TransitionCase.of_terminal hf).fsmTransition_eq)

/-- Settles O5: the transition of a terminal state is the state itself, so a step that leaves one is a reset or a
start. -/
theorem terminalStatesChangeNothing : Obligations.TerminalStatesChangeNothing := by
  unfold Obligations.TerminalStatesChangeNothing
  refine ⟨fun s hq hf => TransitionCase.step_eq_of_quiet hq (.of_terminal hf), fun s t hf h hne => ?_⟩
  obtain ⟨-, hc⟩ := step_cases h
  cases hc with
  | reset hr => exact .inl hr
  | start _ hs _ => exact .inr hs
  | transition _ _ _ ht =>
    obtain rfl := ht.eq_of_terminal (by rwa [edgeState_fsm])
    exact absurd (edgeState_fsm s) hne

/-- Settles O13: each case of the transition names the state it leaves and the state it enters. -/
theorem fsmFollowsItsTransitions : Obligations.FsmFollowsItsTransitions := by
  unfold Obligations.FsmFollowsItsTransitions
  intro s t hq h
  rw [← show s.takeInput.fsm = s.fsm from rfl]
  cases transitionCase_of_quiet hq h with
  | fetch hf => rw [hf]; exact .inl rfl
  | fetchFault hf => rw [hf]; exact .inr rfl
  | lda hf | tax hf | inx hf => rw [hf]; exact .inl rfl
  | brk hf => rw [hf]; exact .inr (.inl rfl)
  | ldaFault hf | unimplemented hf => rw [hf]; exact .inr (.inr rfl)
  | halted hf | faulted hf => rw [hf]

/-! ### The decoded instruction (R78) -/

theorem dispatchBytes_eq (s : State) :
    s.dispatchBytes = s.ir :: (if s.pc.toNat < s.progLen then [s.prog.read s.pc.toNat] else []) := by
  by_cases hb : s.pc.toNat < s.progLen
  · rw [dispatchBytes_of_lt s hb, if_pos hb]
  · rw [dispatchBytes_of_ge s hb, if_neg hb]

/-- On a quiet edge a step from Dispatching runs the instruction that its bytes decode to. -/
theorem step_of_dispatching_of_quiet {s : State} {i : Instr} {rest : List Byte} (hf : s.fsm = .dispatching)
    (hq : Quiet s) (hd : decode s.dispatchBytes = .instr i rest) : step s = exec i s.takeInput := by
  have hd' : decode s.takeInput.dispatchBytes = .instr i rest := hd
  rw [step_of_quiet s hq, fsmTransition_of_dispatching (s := s.takeInput) hf]
  simp only [State.dispatchTransition, hd']

/-- Settles O11: the fetch leaves in `IR` and at `PC` the bytes that were decoded, and Dispatching decodes those. -/
theorem stepsRunTheDecodedInstruction : Obligations.StepsRunTheDecodedInstruction := by
  unfold Obligations.StepsRunTheDecodedInstruction
  constructor
  · intro s i rest hf hi hd
    have hb := lt_progLen_of_decode_bytesAt hd
    rw [← dispatchBytes_fetchOpcode hb] at hd
    rw [step_of_fetching hf hi]
    rw [fetchOpcode_of_lt s hb] at hd ⊢
    exact ⟨rfl, step_of_dispatching rfl hi hd⟩
  · intro s i rest hf hq hd
    rw [← dispatchBytes_eq] at hd
    exact step_of_dispatching_of_quiet hf hq hd

/-! ### What an instruction leaves as it was -/

/-- A flag other than Z and N goes through the flag policy as it was (R67). -/
theorem flagOf_zeroNegative_of_ne {f : Flag} (hz : f ≠ .zero) (hn : f ≠ .negative) (p r : Byte) :
    flagOf (zeroNegative p r) f = flagOf p f := by
  rw [flagOf_zeroNegative, if_neg hn, if_neg hz]

/-- Whatever the instruction, these pieces of state are kept. -/
theorem exec_common_frame {i : Instr} {s t : State} (h : exec i s = .next t) :
    t.ir = s.ir ∧ t.prog = s.prog ∧ t.progLen = s.progLen ∧ t.inputs = s.inputs := by
  rcases exec_cases h with
    ⟨-, rfl⟩ | ⟨v, -, -, rfl⟩ | ⟨v, -, -, rfl⟩ | ⟨-, rfl⟩ | ⟨-, rfl⟩ <;> exact ⟨rfl, rfl, rfl, rfl⟩

/-- An instruction keeps `P` or writes the flag policy's value to it. -/
theorem exec_p_eq {i : Instr} {s t : State} (h : exec i s = .next t) :
    t.p = s.p ∨ ∃ r, t.p = zeroNegative s.p r := by
  rcases exec_cases h with
    ⟨-, rfl⟩ | ⟨v, -, -, rfl⟩ | ⟨v, -, -, rfl⟩ | ⟨-, rfl⟩ | ⟨-, rfl⟩
  case inl | inr.inr.inl => exact .inl rfl
  all_goals exact .inr ⟨_, rfl⟩

theorem exec_keeps_flags {i : Instr} {s t : State} (h : exec i s = .next t) {f : Flag} (hz : f ≠ .zero)
    (hn : f ≠ .negative) : flagOf t.p f = flagOf s.p f := by
  rcases exec_p_eq h with hp | ⟨r, hp⟩ <;> rw [hp]
  exact flagOf_zeroNegative_of_ne hz hn s.p r

/-- Settles O21: the frame common to all instructions, then each one's own. -/
theorem instructionsLeaveTheRestUnchanged : Obligations.InstructionsLeaveTheRestUnchanged := by
  unfold Obligations.InstructionsLeaveTheRestUnchanged
  intro i s t h
  obtain ⟨hir, hprog, hlen, hin⟩ := exec_common_frame h
  refine ⟨hir, hprog, hlen, hin, fun n => by rw [hprog], fun f hz hn => exec_keeps_flags h hz hn, ?_⟩
  rcases exec_cases h with
    ⟨rfl, rfl⟩ | ⟨v, rfl, hb, rfl⟩ | ⟨v, rfl, hb, rfl⟩ | ⟨rfl, rfl⟩ | ⟨rfl, rfl⟩
  · exact ⟨rfl, rfl, rfl, rfl, rfl, rfl⟩
  · exact ⟨rfl, fun _ => ⟨rfl, rfl⟩, fun hge => absurd hb hge.not_gt⟩
  · exact ⟨rfl, fun hlt => absurd hlt hb, fun _ => ⟨rfl, rfl, rfl⟩⟩
  · exact ⟨rfl, rfl, rfl, rfl⟩
  · exact ⟨rfl, rfl, rfl, rfl⟩

/-! ### The writers of `PC` (R10) -/

theorem TransitionCase.pc_eq {s t : State} (h : TransitionCase s t) :
    t.pc = if s.fsmRead ≠ none then s.pc + 1#16 else s.pc := by
  cases h with
  | fetch hf hb => simp [fsmRead_of_fetching hf, hb]
  | fetchFault hf hb => simp [fsmRead_of_fetching hf, hb]
  | lda hf ho hb => simp [fsmRead_of_dispatching hf, ho, hb]
  | ldaFault hf ho hb => simp [fsmRead_of_dispatching hf, hb]
  | brk hf ho | tax hf ho | inx hf ho => simp [fsmRead_of_dispatching hf, ho]
  | unimplemented hf ho =>
    obtain ⟨-, hlda, -⟩ := decodeOpcode_eq_none.1 ho
    simp [fsmRead_of_dispatching hf, hlda]
  | halted hf => simp [fsmRead_of_terminal (.inl hf)]
  | faulted hf => simp [fsmRead_of_terminal (.inr hf)]

/-- Without reset, a supply does not change which index is read: it is taken in a terminal state only, where none
is. -/
theorem fsmRead_edgeState_of_no_reset {s : State} (ha : supplyAccepted s) (hr : s.nextInput.rst = false) :
    (edgeState s).fsmRead = s.fsmRead := by
  by_cases hrun : Running s
  · rw [edgeState_of_running ha hr hrun]
    rfl
  · have hf := terminal_of_not_running hrun
    rw [fsmRead_of_terminal hf, fsmRead_of_terminal (by rwa [edgeState_fsm])]

/-- Settles O28: reset and start write 0, and a transition advances `PC` exactly when it reads. -/
theorem pcMovesOnlyByReadsResetAndStart : Obligations.PcMovesOnlyByReadsResetAndStart := by
  unfold Obligations.PcMovesOnlyByReadsResetAndStart
  intro s t h
  obtain ⟨ha, hc⟩ := step_cases h
  cases hc with
  | reset hr => rw [if_pos (.inl hr)]; rfl
  | start hr hs ht => rw [if_pos (.inr ⟨hs, Fsm.terminal_iff.1 ht⟩)]; rfl
  | transition hr hs _ ht =>
    have hno : ¬ (s.nextInput.rst = true ∨ (s.nextInput.start = true ∧ (s.fsm = .halted ∨ s.fsm = .faulted))) := by
      rw [← Fsm.terminal_iff]
      rcases hs with hs | hs <;> simp [hr, hs]
    rw [if_neg hno, ht.pc_eq, fsmRead_edgeState_of_no_reset ha hr, edgeState_pc]

/-! ### The writers of `A`, `X`, `P` and `IR` -/

/-- A transition keeps `P`, or it is that of LDA, TAX or INX, which write the flag policy's value to it. -/
theorem TransitionCase.p_eq {s t : State} (h : TransitionCase s t) :
    t.p = s.p ∨
    ((s.fsm = .dispatching ∧ (s.ir = 0xA9#8 ∨ s.ir = 0xAA#8 ∨ s.ir = 0xE8#8)) ∧ ∃ r, t.p = zeroNegative s.p r) := by
  cases h with
  | lda hf ho => exact .inr ⟨⟨hf, .inl ho⟩, _, rfl⟩
  | tax hf ho => exact .inr ⟨⟨hf, .inr (.inl ho)⟩, _, rfl⟩
  | inx hf ho => exact .inr ⟨⟨hf, .inr (.inr ho)⟩, _, rfl⟩
  | fetch | fetchFault | brk | ldaFault | unimplemented | halted | faulted => exact .inl rfl

theorem TransitionCase.a_writer {s t : State} (h : TransitionCase s t) (hne : t.a ≠ s.a) :
    s.fsm = .dispatching ∧ s.ir = 0xA9#8 := by
  cases h
  case lda hf ho _ => exact ⟨hf, ho⟩
  all_goals exact absurd rfl hne

theorem TransitionCase.x_writer {s t : State} (h : TransitionCase s t) (hne : t.x ≠ s.x) :
    s.fsm = .dispatching ∧ (s.ir = 0xAA#8 ∨ s.ir = 0xE8#8) := by
  cases h
  case tax hf ho => exact ⟨hf, .inl ho⟩
  case inx hf ho => exact ⟨hf, .inr ho⟩
  all_goals exact absurd rfl hne

theorem TransitionCase.ir_writer {s t : State} (h : TransitionCase s t) (hne : t.ir ≠ s.ir) :
    s.fsm = .fetching := by
  cases h
  case fetch hf _ => exact hf
  all_goals exact absurd rfl hne

/-- Settles O29: start keeps the four registers, and a transition writes each in its writer's case only. -/
theorem registersAreWrittenOnlyByTheirWriters : Obligations.RegistersAreWrittenOnlyByTheirWriters := by
  unfold Obligations.RegistersAreWrittenOnlyByTheirWriters
  intro s t h hr
  rw [← edgeState_a s, ← edgeState_x s, ← edgeState_p s, ← edgeState_ir s, ← edgeState_fsm s]
  obtain ⟨-, hc⟩ := step_cases h
  cases hc with
  | reset hrst => cases hr.symm.trans hrst
  | start => exact ⟨absurd rfl, absurd rfl, absurd rfl, absurd rfl⟩
  | transition _ _ _ ht =>
    exact ⟨ht.a_writer, ht.x_writer, fun hne => (ht.p_eq.resolve_left hne).1, ht.ir_writer⟩

/-! ### The status register's invariant (R35, R67) -/

theorem FlagInv.of_p_eq {s t : State} (hs : FlagInv s) (hp : t.p = s.p) : FlagInv t := by
  obtain ⟨hclear, hnot⟩ := hs
  exact ⟨by rwa [hp], by rwa [hp]⟩

theorem flagInv_of_p_zero {s : State} (hp : s.p = 0x00#8) : FlagInv s :=
  ⟨by rw [hp]; decide, by rw [hp]; decide⟩

/-- The flag policy never leaves both: only the result `0x00` sets Z, and its bit 7 is 0. -/
theorem zeroNegative_not_zero_and_negative (p r : Byte) :
    ¬ (flagOf (zeroNegative p r) .zero = true ∧ flagOf (zeroNegative p r) .negative = true) := by
  rintro ⟨hz, hn⟩
  have hr : r = 0x00#8 := by simpa [flagOf_zeroNegative] using hz
  simp [flagOf_zeroNegative, hr] at hn

theorem FlagInv.of_p_zeroNegative {s t : State} {r : Byte} (hs : FlagInv s) (hp : t.p = zeroNegative s.p r) :
    FlagInv t where
  unwritten_clear := by rw [hp, zeroNegative_and_unwritten, hs.unwritten_clear]
  not_zero_and_negative := by rw [hp]; exact zeroNegative_not_zero_and_negative s.p r

theorem TransitionCase.keeps_flagInv {s t : State} (h : TransitionCase s t) (hs : FlagInv s) : FlagInv t := by
  rcases h.p_eq with hp | ⟨-, r, hp⟩
  · exact hs.of_p_eq hp
  · exact hs.of_p_zeroNegative hp

/-- Settles O36: reset clears `P`, start keeps it, and a transition keeps it or writes the flag policy's value. -/
theorem everyStepKeepsStatusFlags : Obligations.EveryStepKeepsStatusFlags := by
  unfold Obligations.EveryStepKeepsStatusFlags
  intro s t hs h
  have hedge : FlagInv (edgeState s) := hs.of_p_eq (edgeState_p s)
  obtain ⟨-, hc⟩ := step_cases h
  cases hc with
  | reset => exact flagInv_of_p_zero rfl
  | start => exact hedge.of_p_eq rfl
  | transition _ _ _ ht => exact ht.keeps_flagInv hedge

/-! ### The buffer's invariant (R43) -/

/-- The invariant speaks of the buffer and its length alone. -/
theorem BufferInv.of_buffer_eq {s t : State} (hs : BufferInv s) (hbuf : t.prog = s.prog ∧ t.progLen = s.progLen) :
    BufferInv t := by
  obtain ⟨hprog, hlen⟩ := hbuf
  obtain ⟨hwf, hcells, hle⟩ := hs
  exact ⟨by rwa [hprog], by rwa [hprog, hlen], by rwa [hlen]⟩

theorem bufferInv_supplyBuffer (s : State) {bytes : List Byte} (hl : bytes.length ≤ 65536) :
    BufferInv (s.supplyBuffer bytes) where
  canonical := Memory.wf_ofBytes bytes 0
  cells_in_bounds c hc := by simpa using (Memory.mem_ofBytes bytes 0 c hc).2.1
  length_le := hl

theorem bufferInv_edgeState {s : State} (ha : supplyAccepted s) (hs : BufferInv s) : BufferInv (edgeState s) := by
  unfold edgeState
  split
  · exact hs.of_buffer_eq ⟨rfl, rfl⟩
  next bytes hb =>
    obtain ⟨hl, -⟩ := ha bytes hb
    exact bufferInv_supplyBuffer _ hl

/-! ### The control state's invariant -/

/-- Outside Faulted the record is that of no fault (R30, R31). -/
theorem ControlInv.record_clear {s : State} (hs : ControlInv s) (hf : s.fsm ≠ .faulted) :
    s.faultKind = .none ∧ s.faultInfo = 0x0000#16 :=
  have hk := hs.no_fault_unless_faulted hf
  ⟨hk, hs.info_of_none hk⟩

/-- With no fault recorded outside Faulted, the clauses on Dispatching and Halted are what is left to show. -/
theorem controlInv_of_record_clear {s : State} (hrec : s.faultKind = .none ∧ s.faultInfo = 0x0000#16)
    (hf : s.fsm ≠ .faulted)
    (hd : s.fsm = .dispatching → (s.pc - 1#16).toNat < s.progLen ∧ s.prog.read (s.pc - 1#16).toNat = s.ir)
    (hh : s.fsm = .halted → s.ir = 0x00#8) : ControlInv s := by
  obtain ⟨hk, hi⟩ := hrec
  exact ⟨fun _ => hk, fun h => absurd h hf, fun _ => hi, by simp [hk], by simp [hk], hd, hh⟩

theorem controlInv_of_fetching {s : State} (hrec : s.faultKind = .none ∧ s.faultInfo = 0x0000#16)
    (hf : s.fsm = .fetching) : ControlInv s :=
  controlInv_of_record_clear hrec (by simp [hf]) (by simp [hf]) (by simp [hf])

theorem controlInv_raiseOutOfBounds (s : State) : ControlInv (s.raiseOutOfBounds s.pc) := by
  constructor <;> simp [raiseOutOfBounds_eq]

theorem controlInv_raiseUnimplementedOpcode {s : State} (ho : decodeOpcode s.ir = none) :
    ControlInv (s.raiseUnimplementedOpcode s.ir) := by
  constructor <;> simp [raiseUnimplementedOpcode_eq, ho]

theorem TransitionCase.keeps_controlInv {s t : State} (h : TransitionCase s t) (hs : ControlInv s) :
    ControlInv t := by
  have hclear : Running s → s.faultKind = .none ∧ s.faultInfo = 0x0000#16 :=
    fun hrun => hs.record_clear (by rcases hrun with hf | hf <;> simp [hf])
  cases h with
  | fetch hf hb =>
    refine controlInv_of_record_clear (hclear (.inl hf)) (by simp) (fun _ => ?_) (by simp)
    simpa only [BitVec.add_sub_cancel, and_true] using hb
  | brk hf ho => exact controlInv_of_record_clear (hclear (.inr hf)) (by simp) (by simp) (fun _ => ho)
  | lda hf | tax hf | inx hf => exact controlInv_of_fetching (hclear (.inr hf)) rfl
  | fetchFault | ldaFault => exact controlInv_raiseOutOfBounds s
  | unimplemented _ ho => exact controlInv_raiseUnimplementedOpcode ho
  | halted | faulted => exact hs

/-- Without reset a supply is taken in a terminal state only, of which no clause speaks of the buffer. -/
theorem controlInv_edgeState {s : State} (ha : supplyAccepted s) (hr : s.nextInput.rst = false)
    (hs : ControlInv s) : ControlInv (edgeState s) := by
  constructor
  case dispatching_after_opcode =>
    intro hf
    rw [edgeState_fsm] at hf
    rw [edgeState_of_running ha hr (.inr hf)]
    exact hs.dispatching_after_opcode hf
  all_goals simp only [edgeState_fsm, edgeState_faultKind, edgeState_faultInfo, edgeState_pc, edgeState_ir]
  · exact hs.no_fault_unless_faulted
  · exact hs.fault_when_faulted
  · exact hs.info_of_none
  · exact hs.info_of_out_of_bounds
  · exact hs.info_of_unimplemented
  · exact hs.halted_by_brk

theorem StepCase.keeps_controlInv {s t : State} (h : StepCase s t) (ha : supplyAccepted s) (hs : ControlInv s) :
    ControlInv t := by
  cases h with
  | reset | start => exact controlInv_of_fetching ⟨rfl, rfl⟩ rfl
  | transition hr _ _ ht => exact ht.keeps_controlInv (controlInv_edgeState ha hr hs)

/-- Settles O35: the edge keeps the buffer that the host's supply leaves, and the control state by its case. -/
theorem everyStepKeepsBufferAndControl : Obligations.EveryStepKeepsBufferAndControl := by
  unfold Obligations.EveryStepKeepsBufferAndControl
  intro s t hbuf hctl h
  obtain ⟨ha, hc⟩ := step_cases h
  exact ⟨(bufferInv_edgeState ha hbuf).of_buffer_eq hc.keeps_edge_buffer, hc.keeps_controlInv ha hctl⟩

/-- Settles O34: after reset the buffer is empty, the block is Fetching with no fault recorded, and `P` is 0. -/
theorem resetMeetsTheInvariants : Obligations.ResetMeetsTheInvariants := by
  unfold Obligations.ResetMeetsTheInvariants
  exact ⟨bufferInv_supplyBuffer State.reset (bytes := []) (by decide), controlInv_of_fetching ⟨rfl, rfl⟩ rfl,
    flagInv_of_p_zero rfl⟩

/-! ### The encoding (R56 to R63) -/

theorem decode_encode (i : Instr) (rest : List Byte) : decode (encode i ++ rest) = .instr i rest := by
  cases i with
  | brk => exact decode_brk rest
  | ldaImm v => exact decode_ldaImm v rest
  | tax => exact decode_tax rest
  | inx => exact decode_inx rest

/-- The opcode read picks the instruction, whose encoding begins with it; LDA's goes on with its operand. -/
theorem eq_encode_of_decode {bytes : List Byte} {i : Instr} {rest : List Byte} (h : decode bytes = .instr i rest) :
    bytes = encode i ++ rest := by
  cases bytes with
  | nil => cases h
  | cons op tail =>
    simp only [decode] at h
    cases ho : decodeOpcode op with
    | none => simp [ho] at h
    | some o =>
      obtain rfl := decodeOpcode_eq_some.1 ho
      rw [ho] at h
      cases o with
      | brk | tax | inx => cases h; rfl
      | ldaImm =>
        cases tail with
        | nil => cases h
        | cons v tail => cases h; rfl

/-- Settles O39: the two directions are `decode_encode` and `eq_encode_of_decode`. -/
theorem decodeAndEncodeAgree : Obligations.DecodeAndEncodeAgree := by
  unfold Obligations.DecodeAndEncodeAgree
  intro bytes i rest
  refine ⟨eq_encode_of_decode, ?_⟩
  rintro rfl
  exact decode_encode i rest

/-- The decoder refuses an opcode by name exactly when the map has no row for it, whatever follows (R63). -/
theorem decode_eq_unimplemented_iff {op : Byte} {rest : List Byte} :
    decode (op :: rest) = .unimplemented op ↔ decodeOpcode op = none := by
  simp only [decode]
  cases decodeOpcode op with
  | none => simp
  | some o => cases o <;> cases rest <;> simp

/-- The 252 values lie in the three ranges between the four opcodes (R62). -/
theorem decodeOpcode_eq_none_iff_toNat {op : Byte} :
    decodeOpcode op = none ↔
      (0x01 ≤ op.toNat ∧ op.toNat ≤ 0xA8) ∨ (0xAB ≤ op.toNat ∧ op.toNat ≤ 0xE7) ∨
        (0xE9 ≤ op.toNat ∧ op.toNat ≤ 0xFF) := by
  rw [decodeOpcode_eq_none]
  bv_omega

theorem decodeOpcode_ofNat_eq_none_iff {n : Nat} (hn : n < 256) :
    decodeOpcode (BitVec.ofNat 8 n) = none ↔ n ∉ ({0x00, 0xA9, 0xAA, 0xE8} : Finset Nat) := by
  simp only [decodeOpcode_eq_none, Finset.mem_insert, Finset.mem_singleton, not_or]
  bv_omega

/-- The count of a list's filter as a cardinality, where set difference can be counted. -/
theorem length_filter_range (p : Nat → Bool) (n : Nat) :
    ((List.range n).filter p).length = ((Finset.range n).filter fun i => p i).card := by
  simp [Finset.card_def, Multiset.range]

/-- The values with no row in the map are the 256 bytes without the four opcodes (R62). -/
theorem length_unimplemented :
    ((List.range 256).filter fun n => (decodeOpcode (BitVec.ofNat 8 n)).isNone).length = 252 := by
  have hset : (Finset.range 256).filter (fun n => (decodeOpcode (BitVec.ofNat 8 n)).isNone) =
      Finset.range 256 \ {0x00, 0xA9, 0xAA, 0xE8} := by
    ext n
    rw [Finset.mem_filter, Finset.mem_sdiff, Finset.mem_range, Option.isNone_iff_eq_none]
    exact and_congr_right decodeOpcode_ofNat_eq_none_iff
  rw [length_filter_range, hset, Finset.card_sdiff_of_subset (by decide), Finset.card_range]
  rfl

/-- Settles O40: an opcode is refused exactly when no row is selected, and the values without a row are counted. -/
theorem unimplementedOpcodesAreTheOtherValues : Obligations.UnimplementedOpcodesAreTheOtherValues := by
  unfold Obligations.UnimplementedOpcodesAreTheOtherValues
  exact ⟨fun op rest => decode_eq_unimplemented_iff.trans decodeOpcode_eq_none_iff_toNat, length_unimplemented⟩

/-- Settles O41: seven words, decoded by evaluation. -/
theorem specWordsDecode : Obligations.SpecWordsDecode := by
  unfold Obligations.SpecWordsDecode
  decide

end Sys2Proof.Machine
